-- ==== Sys2Proof/Word.lean ====
section
/-! DEFINITION. The word types of the core: cells and program words. -/

namespace Sys2Proof

/-- One tape cell, an unsigned 8-bit value (R8, R32). -/
abbrev Byte := BitVec 8

/-- One program-memory word of `PROG_CHAR_BITS + 1` bits by its two fields (R80): the tag `T`, the highest bit, and the
character's code `C` below it. `PWord.ofBits` and `PWord.toBits` are the word as bits. The width of a character, of the
program text (R11) or of the input queue (R12), is a parameter and codes are only compared, so a code is a natural
number, bounded by its width in every run (log entry 5). -/
structure PWord where
  tag : Bool
  code : Nat
  deriving DecidableEq, Repr

/-- The bits of a program word at this spec's `PROG_CHAR_BITS = 21` (R80). -/
abbrev Bits22 := BitVec 22

end Sys2Proof
end

