-- ==== Sys2Proof/Config.lean ====
section
/-! DEFINITION. The implementation parameters of 00_scope.md section 4 that are not part of a run's state, and the
inputs the host supplies at reset. The spec leaves no value of an instruction open, so there is no free value here. -/

namespace Sys2Proof

/-- The parameters of an implementation (R10 to R13). The two code widths may be any number of bits (log entry 5). `PC_BITS` and `DP_BITS` are no parameter of the model: the
two registers are naturals, as decision D15 allows (log entry 3). -/
structure Params where
  /-- `PROG_CHAR_BITS`, 21 in this spec (R11). -/
  progCharBits : Nat := 21
  /-- `IN_CHAR_BITS`, 21 in this spec (R12). -/
  inCharBits : Nat := 21
  /-- `TERM_CHAR`: `none` in this spec, `some c` for the original's literal sentinel (R13). -/
  termChar : Option Nat := none
  /-- `PROG_MAX`, where the hardware has a program memory of fixed size (R10). -/
  progMax : Option Nat := none
  deriving DecidableEq, Repr

/-- What the host supplies at reset (R232, R250): the program text and the input string as character codes, the
first character first, and the tape size. -/
structure HostInputs where
  text : List Nat
  /-- "an optional input string" (R46). -/
  input : Option (List Nat) := none
  /-- "a tape size (default 30000 cells)" (R9). -/
  tapeLen : Nat := 30000
  deriving DecidableEq, Repr

/-- The parameters as this spec takes them. -/
def Config.params : Params := { }

/-- The host supplies nothing: empty program text, no input string, the default tape size (log entry 1). -/
def Config.noInputs : HostInputs := { text := [] }

end Sys2Proof
end

