-- ==== Sys2Proof/Syntax.lean ====
section
/-! DEFINITION. The instructions: one constructor per row of spec/opcode_table.json. -/

namespace Sys2Proof

/-- What made a word a terminator (R84): its tag bit, with whatever stands in `C` (0 when loaded, R81; other values
are reserved and decode as `HALT`, R87), or a character of the text that equals `TERM_CHAR`. -/
inductive Terminator where
  | tagged (c : Nat)
  | sentinel (c : Nat)
  deriving DecidableEq, Repr

/-- An instruction (R82). No command has an operand (R89). `halt` and `comment` keep the `C` field of their word, so
that encoding gives the word back; no meaning reads it (log entry 7). -/
inductive Instr where
  | halt (t : Terminator)
  | ptrInc
  | ptrDec
  | cellInc
  | cellDec
  | out
  | inp
  | loopStart
  | loopEnd
  | comment (c : Nat)
  deriving DecidableEq, Repr

/-- The instruction's mnemonic in spec/opcode_table.json (R82). -/
def Instr.mnemonic : Instr → String
  | .halt _ => "HALT"
  | .ptrInc => "PTR_INC"
  | .ptrDec => "PTR_DEC"
  | .cellInc => "CELL_INC"
  | .cellDec => "CELL_DEC"
  | .out => "OUT"
  | .inp => "IN"
  | .loopStart => "LOOP_START"
  | .loopEnd => "LOOP_END"
  | .comment _ => "COMMENT"

/-- A row of spec/opcode_table.json: a word `w` is of the row when `w` under the mask is the match. -/
structure OpcodeRow where
  mnemonic : String
  pattern : Bits22
  mask : Bits22
  deriving DecidableEq, Repr

/-- Why a number is refused by the decoder. A word of `PROG_CHAR_BITS + 1` bits never is (R86). -/
inductive DecodeError where
  /-- The number has a bit above the tag, so it is no program word (R80). Raised by `decodeRaw`; safe. -/
  | widerThanAWord (w : Nat)
  deriving DecidableEq, Repr

end Sys2Proof
end

