-- ==== Sys2Proof/Decode.lean ====
section
/-! DEFINITION. The program word as bits, the decoder (30_encoding.md) and the encoder. -/

namespace Sys2Proof

/-! ### The bits of a program word (R80), `b` for `PROG_CHAR_BITS` -/

/-- The fields of a word: bit `b` is the tag, bits `b-1:0` are the code. -/
def PWord.ofBits {b : Nat} (w : BitVec (b + 1)) : PWord := { tag := w.msb, code := (w.setWidth b).toNat }

/-- The word `{T, C}`, `T` in the higher bit. -/
def PWord.toBits (b : Nat) (w : PWord) : BitVec (b + 1) := BitVec.cons w.tag (BitVec.ofNat b w.code)

/-- The word loaded for a character of the user text, `{0, code}` (R81). -/
def charWord (c : Nat) : PWord := { tag := false, code := c }

/-- The appended terminator, `{1, 0}`; 0x200000 when `PROG_CHAR_BITS` is 21 (R81). -/
def terminatorWord : PWord := { tag := true, code := 0 }

/-! ### The eight command codes (R82; the values are K1's, from general knowledge: log entry 23) -/

def codePtrInc : Nat := 0x3E
def codePtrDec : Nat := 0x3C
def codeCellInc : Nat := 0x2B
def codeCellDec : Nat := 0x2D
def codeOut : Nat := 0x2E
def codeInp : Nat := 0x2C
def codeLoopStart : Nat := 0x5B
def codeLoopEnd : Nat := 0x5D

def commandCodes : List Nat :=
  [codePtrInc, codePtrDec, codeCellInc, codeCellDec, codeOut, codeInp, codeLoopStart, codeLoopEnd]

/-! ### Decoding -/

/-- `is_cmd(w, s)` for the symbol of code `c`: tag 0 and `C` as a whole equal to `c` (R83). -/
def isCmd (w : PWord) (c : Nat) : Bool := !w.tag && w.code == c

/-- `w` is a character of the user text that equals `TERM_CHAR` (R84). -/
def isSentinel (termChar : Option Nat) (w : PWord) : Bool :=
  match termChar with
  | none => false
  | some c => isCmd w c

/-- `is_term(w)` (R84). -/
def isTerm (termChar : Option Nat) (w : PWord) : Bool := w.tag || isSentinel termChar w

/-- Decoding a fetched word, in the order of R85: the terminator, the eight commands, a comment. Total (R86). -/
def decode (termChar : Option Nat) (w : PWord) : Instr :=
  if isTerm termChar w then
    .halt (if w.tag then .tagged w.code else .sentinel w.code)
  else if isCmd w codePtrInc then .ptrInc
  else if isCmd w codePtrDec then .ptrDec
  else if isCmd w codeCellInc then .cellInc
  else if isCmd w codeCellDec then .cellDec
  else if isCmd w codeOut then .out
  else if isCmd w codeInp then .inp
  else if isCmd w codeLoopStart then .loopStart
  else if isCmd w codeLoopEnd then .loopEnd
  else .comment w.code

/-- Decoding the bits of a word. -/
def decodeBits {b : Nat} (termChar : Option Nat) (w : BitVec (b + 1)) : Instr := decode termChar (.ofBits w)

/-- Decoding any number as the bits of a word: one of more than `b + 1` bits is no program word and is refused by name
(R80; log entry 12). -/
def decodeRaw (b : Nat) (termChar : Option Nat) (n : Nat) : Except DecodeError Instr :=
  if n < 2 ^ (b + 1) then .ok (decodeBits termChar (BitVec.ofNat (b + 1) n)) else .error (.widerThanAWord n)

/-- The instruction the decoder reads from the `nbits` low bits of `w`, with the parameters as this spec takes them. -/
def decodeTableWord (nbits w : Nat) : Option Instr :=
  match decodeRaw Config.params.progCharBits Config.params.termChar (w % 2 ^ nbits) with
  | .ok i => some i
  | .error _ => none

/-! ### Encoding -/

/-- The word of an instruction (R80, R82). -/
def encode : Instr → PWord
  | .halt (.tagged c) => { tag := true, code := c }
  | .halt (.sentinel c) => charWord c
  | .ptrInc => charWord codePtrInc
  | .ptrDec => charWord codePtrDec
  | .cellInc => charWord codeCellInc
  | .cellDec => charWord codeCellDec
  | .out => charWord codeOut
  | .inp => charWord codeInp
  | .loopStart => charWord codeLoopStart
  | .loopEnd => charWord codeLoopEnd
  | .comment c => charWord c

/-- The bits of an instruction's word. -/
def encodeBits (b : Nat) (i : Instr) : BitVec (b + 1) := (encode i).toBits b

/-! ### The opcode table as it stands in spec/opcode_table.json, in ascending priority -/

def opcodeRows : List OpcodeRow :=
  [ ⟨"HALT", 0x200000#22, 0x200000#22⟩, ⟨"PTR_INC", 0x00003E#22, 0x3FFFFF#22⟩, ⟨"PTR_DEC", 0x00003C#22, 0x3FFFFF#22⟩,
    ⟨"CELL_INC", 0x00002B#22, 0x3FFFFF#22⟩, ⟨"CELL_DEC", 0x00002D#22, 0x3FFFFF#22⟩, ⟨"OUT", 0x00002E#22, 0x3FFFFF#22⟩,
    ⟨"IN", 0x00002C#22, 0x3FFFFF#22⟩, ⟨"LOOP_START", 0x00005B#22, 0x3FFFFF#22⟩, ⟨"LOOP_END", 0x00005D#22, 0x3FFFFF#22⟩,
    ⟨"COMMENT", 0x000000#22, 0x200000#22⟩ ]

/-- "try rows in ascending priority; first (word & mask) == match wins" (opcode_table.json, the note of `HALT`). -/
def tableMnemonic (w : Bits22) : Option String :=
  (opcodeRows.find? fun r => w &&& r.mask == r.pattern).map (·.mnemonic)

end Sys2Proof
end

