-- ==== Sys2Proof/Machine/State.lean ====
section
/-! DEFINITION. The state of the core (10_state.md), the reasons a step can stop, and the state after reset. -/

namespace Sys2Proof.Machine

/-- The run status `STATUS` (R40). The reserved value 3 is never written and has no name here (log entry 16). -/
inductive Status where
  | running
  | terminated
  | aborted
  deriving DecidableEq, Repr

/-- The error kind `ERR` (R41); `noError` is `NONE`. The reserved values 6 and 7 have no name here (log entry 16). -/
inductive ErrKind where
  | noError
  | unmatchedClosingBracket
  | unmatchedOpeningBracket
  | badMemoryPointer
  | badCommandPointer
  | badInput
  deriving DecidableEq, Repr

/-- The tape's contents: the cells that differ from `unlistedCell`, by rising index (log entry 17). -/
abbrev Memory := List Host.Cell

/-- What a cell that is not listed reads as: the reset contents, 0 (R31). -/
def unlistedCell : Byte := 0#8

/-- The program memory `P[0..N]` (R45, R65): `text` is `P[0..N-1]` and `term` is `P[N]` (log entry 18). -/
structure ProgMem where
  text : List PWord
  term : PWord
  deriving DecidableEq, Repr

/-- The architectural state (R30) and the configuration values fixed for the run (R42, R11 to R13). -/
structure State where
  /-- The tape `T` (R31). -/
  tape : Memory
  /-- `TAPE_LEN` (R42). -/
  tapeLen : Nat
  /-- The data pointer (R33). -/
  dp : Nat
  /-- The program counter (R35). -/
  pc : Nat
  /-- The program memory `P`; `PROG_LEN` is the length of its text (R45, R42). -/
  prog : ProgMem
  /-- `PROG_CHAR_BITS`, the width of a program character (R11). -/
  progCharBits : Nat
  /-- `IN_CHAR_BITS`, the width of an input character (R12). -/
  inCharBits : Nat
  /-- `TERM_CHAR` (R13). -/
  termChar : Option Nat
  /-- The input queue, head first (R46). -/
  iq : List Nat
  /-- The output stream, oldest first (R47). -/
  out : List Byte
  /-- `STATUS` (R40). -/
  status : Status
  /-- `ERR` (R41). -/
  err : ErrKind
  deriving DecidableEq, Repr

/-- The reasons a step stops with a fault. The five error kinds of the spec are none of these: an abort is a next
state (R224). -/
inductive Fault where
  /-- A command touches the current cell while `dp` is outside the tape. Raised by `+`, `-`, `.`, `[` and by a `,`
  that has a character to write. Safe: no run reaches such a state (R123), and the spec gives no cell there (R64). -/
  | dataPointerOffTape
  deriving DecidableEq, Repr

/-- The reasons there is no meaning. -/
inductive Refusal where
  /-- An arm of `exec` whose instruction has no meaning yet. Raised by no arm now. Safe. -/
  | notModelled (mnemonic : String)
  /-- Raised by `construct`: `TAPE_LEN = 0` (R252, D5). Safe. -/
  | tapeLenZero
  /-- Raised by `construct`: `TERM_CHAR` is a command code (R252, D3). Safe. -/
  | termCharIsCommand
  /-- Raised by `construct`: a program character does not fit in `PROG_CHAR_BITS` bits (R252, D2). Safe. -/
  | progCodeTooWide
  /-- Raised by `construct`: an input character does not fit in `IN_CHAR_BITS` bits (R252, D12). Safe. -/
  | inputCodeTooWide
  /-- Raised by `construct`: the text is longer than `PROG_MAX` (R252, D6). Safe. -/
  | progTooLong
  deriving DecidableEq, Repr

/-- The state right after a reset at which the host supplies no program text, no input string and the default tape
size (R250, R251; log entry 1). A reset with other inputs is `construct`. -/
def State.reset : State where
  tape := []
  tapeLen := 30000
  dp := 0
  pc := 0
  prog := { text := [], term := terminatorWord }
  progCharBits := 21
  inCharBits := 21
  termChar := none
  iq := []
  out := []
  status := .running
  err := .noError

end Sys2Proof.Machine
end

