-- ==== Sys2Proof/Machine/Ops.lean ====
section
/-! DEFINITION. The shared operations: the tape as a memory of cells, `wrap`, the program memory, the program
counter's advance, and the abort that every error takes. -/

namespace Sys2Proof.Machine

/-- What a command answers. -/
abbrev Result := Host.Outcome State Fault Refusal

/-! ### The tape as a memory of cells (R31, R61) -/

/-- The cell at index `a`. -/
def Memory.read : Memory → Nat → Byte
  | [], _ => unlistedCell
  | (b, v) :: m, a => if a = b then v else Memory.read m a

/-- The tape with the cell at index `a` replaced by `v`. Writing what an unlisted cell reads as takes the entry out,
so that equal tapes are equal lists. -/
def Memory.write : Memory → Nat → Byte → Memory
  | [], a, v => if v = unlistedCell then [] else [(a, v)]
  | (b, u) :: m, a, v =>
    if a < b then (if v = unlistedCell then (b, u) :: m else (a, v) :: (b, u) :: m)
    else if a = b then (if v = unlistedCell then m else (a, v) :: m)
    else (b, u) :: Memory.write m a v

/-- Indices from `lo` up strictly rise, and no entry equals an unlisted cell. -/
def Memory.wfFrom (lo : Nat) : Memory → Bool
  | [] => true
  | (a, v) :: m => decide (lo ≤ a) && v != unlistedCell && Memory.wfFrom (a + 1) m

/-- The one canonical form. -/
def Memory.wf (m : Memory) : Bool := Memory.wfFrom 0 m

/-! ### Cell arithmetic (R100) -/

/-- `wrap(n) = ((n mod 256) + 256) mod 256`, for any integer `n`. -/
def wrap (n : Int) : Byte := BitVec.ofNat 8 ((n % 256 + 256) % 256).toNat

/-! ### The program memory (R45, R65, R81) -/

/-- `N`, the register `PROG_LEN`: the length of the text without the terminator (R10, R42). -/
def ProgMem.len (p : ProgMem) : Nat := p.text.length

/-- `P[0..N]`, the text followed by the terminator. -/
def ProgMem.extended (p : ProgMem) : List PWord := p.text ++ [p.term]

/-- `P[i]`, if there is such a word. -/
def ProgMem.word? (p : ProgMem) (i : Nat) : Option PWord := p.extended[i]?

/-- The program memory with `w` at index `i` of the text. A text that ends before `i` is filled up to `i` with
comment words 0 (log entry 12). No command does this (R45); the host's load does. -/
def ProgMem.place (p : ProgMem) (i : Nat) (w : PWord) : ProgMem :=
  { p with text :=
      if i < p.len then p.text.set i w else p.text ++ List.replicate (i - p.len) (charWord 0) ++ [w] }

/-! ### The program counter -/

/-- `pc <- pc + 1`. -/
def State.advance (s : State) : State := { s with pc := s.pc + 1 }

/-- `pc <- target`. -/
def State.jump (s : State) (target : Nat) : State := { s with pc := target }

/-! ### Taking an error (R224)

There is no return from one (R228). -/

/-- `raise k`: the run is aborted and the kind recorded, and nothing else is written (R224, R226). A `,` that fails
gives this the state whose queue has already lost the character (R225). -/
def State.raise (s : State) (k : ErrKind) : State := { s with status := .aborted, err := k }

/-- The command raises `k`. -/
def abort (k : ErrKind) (s : State) : Result := .next (s.raise k)

end Sys2Proof.Machine
end

