-- ==== Sys2Proof/Machine/Operands.lean ====
section
/-! DEFINITION. The implicit operands of the commands (R89): the current cell, the input queue and the output stream,
and the fetched program word. -/

namespace Sys2Proof.Machine

/-- `read_current()`, the cell at `dp` (R61). -/
def State.readCurrent (s : State) : Byte := s.tape.read s.dp

/-- `write_current(v)`: the cell at `dp` becomes `wrap(v)` (R61, R107). -/
def State.writeCurrent (s : State) (v : Int) : State := { s with tape := s.tape.write s.dp (wrap v) }

/-- A command that touches the current cell. In every state a run reaches `dp` is inside the tape (R123) and the
access never fails (R61); outside it there is no cell to touch (R64; log entry 10). -/
def onCurrentCell (s : State) (k : Result) : Result :=
  if s.dp < s.tapeLen then k else .fault .dataPointerOffTape

/-- `Dequeue()`: the head of the input queue, if there is one, and the state without it; `none` is `EMPTY` (R66). -/
def State.dequeue (s : State) : Option Nat × State :=
  match s.iq with
  | [] => (none, s)
  | c :: rest => (some c, { s with iq := rest })

/-- `Emit(v)`: the value is appended to the output stream (R67). -/
def State.emit (s : State) (v : Byte) : State := { s with out := s.out ++ [v] }

/-- `Fetch(pc)`: `P[pc]` for `pc` from 0 to `N`; `none` outside that range (R191). `pc` is never negative, since
every value of this hardware is unsigned (00_scope.md section 5). -/
def State.fetch (s : State) : Option PWord := s.prog.word? s.pc

end Sys2Proof.Machine
end

