-- ==== Sys2Proof/Machine/Alu.lean ====
section
/-! DEFINITION. The byte-cell ALU: `+` and `-` (40_cell_alu.md). -/

namespace Sys2Proof.Machine

/-- `increment(x) = wrap(x + 1)` (R101). -/
def increment (x : Byte) : Byte := wrap (x.toNat + 1)

/-- `decrement(x) = wrap(x - 1)` (R102). -/
def decrement (x : Byte) : Byte := wrap (x.toNat - 1)

/-- `+`: `write_current(increment(read_current()))`, then `pc + 1` (R103). -/
def execCellInc (s : State) : Result :=
  onCurrentCell s (.next (s.writeCurrent (increment s.readCurrent).toNat).advance)

/-- `-`: `write_current(decrement(read_current()))`, then `pc + 1` (R104). -/
def execCellDec (s : State) : Result :=
  onCurrentCell s (.next (s.writeCurrent (decrement s.readCurrent).toNat).advance)

end Sys2Proof.Machine
end

