-- ==== Sys2Proof/Machine/Flags.lean ====
section
/-! DEFINITION. The core has no flags, condition codes or predicates (R38). The one condition it tests is below; it
is computed when `[` executes and is not stored. -/

namespace Sys2Proof.Machine

/-- "the current cell is non-zero" (R38, R160). -/
def State.cellNonZero (s : State) : Bool := s.readCurrent != 0#8

end Sys2Proof.Machine
end

