-- ==== Sys2Proof/Machine/Bracket.lean ====
section
/-! DEFINITION. The nested-bracket scanner: `[` and `]` (43_bracket_scanner.md). -/

namespace Sys2Proof.Machine

/-- The words from index `j` up to the end of the text, `depth` nested brackets open: the index of the first `]` at
depth 0, or `none` for `NOMATCH` (R162). Every other word is passed over (R166). -/
def scanForwardFrom (depth j : Nat) : List PWord → Option Nat
  | [] => none
  | w :: ws =>
    if isCmd w codeLoopStart then scanForwardFrom (depth + 1) (j + 1) ws
    else if isCmd w codeLoopEnd then
      if depth = 0 then some j else scanForwardFrom (depth - 1) (j + 1) ws
    else scanForwardFrom depth (j + 1) ws

/-- `ScanForward(p)` (R162): the scan of `P[p+1 .. N-1]`. -/
def scanForward (text : List PWord) (p : Nat) : Option Nat :=
  scanForwardFrom 0 (p + 1) (text.drop (p + 1))

/-- The words below some index, the nearest first, so that the head stands at the index that is the number of words
after it: the index of the first `[` at depth 0, or `none` for `NOMATCH` (R163). -/
def scanBackwardFrom (depth : Nat) : List PWord → Option Nat
  | [] => none
  | w :: ws =>
    if isCmd w codeLoopEnd then scanBackwardFrom (depth + 1) ws
    else if isCmd w codeLoopStart then
      if depth = 0 then some ws.length else scanBackwardFrom (depth - 1) ws
    else scanBackwardFrom depth ws

/-- `ScanBackward(p)` (R163): the scan of `P[p-1 .. 0]`. A step only asks it for `p < N` (log entry 20). -/
def scanBackward (text : List PWord) (p : Nat) : Option Nat :=
  scanBackwardFrom 0 (text.take p).reverse

/-- `[`: into the loop when the current cell is non-zero, with no scan; otherwise past the matching `]`, or
`UNMATCHED_CLOSING_BRACKET` (R160, R220). -/
def execLoopStart (s : State) : Result :=
  onCurrentCell s <|
    if s.cellNonZero then .next s.advance
    else
      match scanForward s.prog.text s.pc with
      | some m => .next (s.jump (m + 1))
      | none => abort .unmatchedClosingBracket s

/-- `]`: back to the matching `[` itself, whatever the cell holds, or `UNMATCHED_OPENING_BRACKET` (R161, R221). -/
def execLoopEnd (s : State) : Result :=
  match scanBackward s.prog.text s.pc with
  | some m => .next (s.jump m)
  | none => abort .unmatchedOpeningBracket s

end Sys2Proof.Machine
end

