-- ==== Sys2Proof/Machine/CharIO.lean ====
section
/-! DEFINITION. Character I/O: `.` and `,` (42_io.md). -/

namespace Sys2Proof.Machine

/-- `.`: the current cell goes to the output stream, then `pc + 1` (R140). -/
def execOut (s : State) : Result :=
  onCurrentCell s (.next (s.emit s.readCurrent).advance)

/-- `,`: the head of the input queue goes to the current cell, then `pc + 1`. An empty queue leaves the cell alone; a
code above 255 aborts with `BAD_INPUT`, and the queue has lost it by then (R141, R142, R225; log entries 13, 14). -/
def execInp (s : State) : Result :=
  match s.dequeue with
  | (none, t) => .next t.advance
  | (some x, t) =>
    if 255 < x then abort .badInput t
    else onCurrentCell t (.next (t.writeCurrent x).advance)

end Sys2Proof.Machine
end

