-- ==== Sys2Proof/Machine/Cursor.lean ====
section
/-! DEFINITION. The tape cursor controller: `>` and `<` (41_tape_cursor.md). -/

namespace Sys2Proof.Machine

/-- `move_pointer(delta)` (R122): the sum is an integer, checked against `[0, TAPE_LEN)` before the pointer is
written; `none` when it falls outside, and the pointer is then left alone. -/
def movePointer (delta : Int) (s : State) : Option State :=
  let t : Int := s.dp + delta
  if t < 0 ∨ (s.tapeLen : Int) ≤ t then none else some { s with dp := t.toNat }

/-- A cursor command: the move, then `pc + 1`, or `BAD_MEMORY_POINTER` (R222). -/
def moveCursor (delta : Int) (s : State) : Result :=
  match movePointer delta s with
  | some t => .next t.advance
  | none => abort .badMemoryPointer s

/-- `>` (R120). -/
def execPtrInc (s : State) : Result := moveCursor 1 s

/-- `<` (R121). The whole check of R122 is made (log entry 11). -/
def execPtrDec (s : State) : Result := moveCursor (-1) s

end Sys2Proof.Machine
end

