-- ==== Sys2Proof/Machine/Sequencer.lean ====
section
/-! DEFINITION. The sequencer's own two outcomes: the terminator and a comment (44_dispatch_sequencer.md). -/

namespace Sys2Proof.Machine

/-- The terminator: `STATUS <- TERMINATED` and nothing else; `pc` keeps the terminator's index (R192). -/
def execHalt (s : State) : Result := .next { s with status := .terminated }

/-- A comment: `pc <- pc + 1` and nothing else (R193). -/
def execComment (s : State) : Result := .next s.advance

end Sys2Proof.Machine
end

