-- ==== Sys2Proof/Machine/Dispatch.lean ====
section
/-! DEFINITION. One arm per instruction, each one call of its meaning (R194). -/

namespace Sys2Proof.Machine

def exec (i : Instr) (s : State) : Host.Outcome State Fault Refusal :=
  match i with
  | .halt _ => Sys2Proof.Machine.execHalt s
  | .ptrInc => Sys2Proof.Machine.execPtrInc s
  | .ptrDec => Sys2Proof.Machine.execPtrDec s
  | .cellInc => Sys2Proof.Machine.execCellInc s
  | .cellDec => Sys2Proof.Machine.execCellDec s
  | .out => Sys2Proof.Machine.execOut s
  | .inp => Sys2Proof.Machine.execInp s
  | .loopStart => Sys2Proof.Machine.execLoopStart s
  | .loopEnd => Sys2Proof.Machine.execLoopEnd s
  | .comment _ => Sys2Proof.Machine.execComment s

end Sys2Proof.Machine
end

