-- ==== Sys2Proof/Machine/Step.lean ====
section
/-! DEFINITION. One dispatch cycle (R190, R195), and placing a word where the next one fetches. -/

namespace Sys2Proof.Machine

/-- One step. In `RUNNING` the word at `pc` is fetched, decoded and executed; a fetch outside `[0, N]` aborts with
`BAD_COMMAND_POINTER` before decode (R191). In `TERMINATED` and `ABORTED` a step request changes nothing (R197). -/
def step (s : State) : Host.Outcome State Fault Refusal :=
  match s.status with
  | .running =>
    match s.fetch with
    | some w => exec (decode s.termChar w) s
    | none => abort .badCommandPointer s
  | .terminated => .next s
  | .aborted => .next s

/-- `s` with the `nbits` low bits of `w`, cut to a word's width, as the program word at `pc`, and granted a step: this
stands for the host's load of a program (R250; log entries 1 and 12). -/
def State.withFetchWord (s : State) (nbits w : Nat) : State :=
  { s with prog := s.prog.place s.pc (.ofBits (BitVec.ofNat (s.progCharBits + 1) (w % 2 ^ nbits))), status := .running }

end Sys2Proof.Machine
end

