-- ==== Sys2Proof/Machine/Reference.lean ====
section
/-! DEFINITION. The spec's own pseudocode of one step (R195) and of the two scans (R162, R163), transcribed line by
line. No part of the machine calls it: the refinement statements compare the machine with it. -/

namespace Sys2Proof.Machine

/-- The body of `ScanForward`'s loop at `j`, with the number of iterations left. -/
def refForwardLoop (P : Nat → PWord) (depth j : Nat) : Nat → Option Nat
  | 0 => none
  | k + 1 =>
    if isCmd (P j) codeLoopStart then refForwardLoop P (depth + 1) (j + 1) k
    else if isCmd (P j) codeLoopEnd then
      if depth = 0 then some j else refForwardLoop P (depth - 1) (j + 1) k
    else refForwardLoop P depth (j + 1) k

/-- `for j = p + 1, p + 2, ..., N - 1`, `depth` from 0 (R162). -/
def refScanForward (P : Nat → PWord) (n p : Nat) : Option Nat := refForwardLoop P 0 (p + 1) (n - (p + 1))

/-- `for j = p - 1, p - 2, ..., 0` (R163): the argument is one more than the index looked at. -/
def refBackwardLoop (P : Nat → PWord) (depth : Nat) : Nat → Option Nat
  | 0 => none
  | j + 1 =>
    if isCmd (P j) codeLoopEnd then refBackwardLoop P (depth + 1) j
    else if isCmd (P j) codeLoopStart then
      if depth = 0 then some j else refBackwardLoop P (depth - 1) j
    else refBackwardLoop P depth j

def refScanBackward (P : Nat → PWord) (p : Nat) : Option Nat := refBackwardLoop P 0 p

/-- `P[i]`; the index is in range wherever the pseudocode reads it. -/
def refP (s : State) (i : Nat) : PWord := s.prog.extended.getD i (charWord 0)

/-- `raise k` (R224). -/
def refRaise (s : State) (k : ErrKind) : State := { s with status := .aborted, err := k }

/-- `step()` of R195, from a state with `STATUS = RUNNING` whose `dp` is on the tape. -/
def refStep (s : State) : State :=
  if s.pc > s.prog.text.length then refRaise s .badCommandPointer
  else
    let w := refP s s.pc
    if isTerm s.termChar w then { s with status := .terminated }
    else if isCmd w codePtrInc then
      if s.dp + 1 ≥ s.tapeLen then refRaise s .badMemoryPointer
      else { s with dp := s.dp + 1, pc := s.pc + 1 }
    else if isCmd w codePtrDec then
      if s.dp = 0 then refRaise s .badMemoryPointer
      else { s with dp := s.dp - 1, pc := s.pc + 1 }
    else if isCmd w codeCellInc then
      { s with tape := s.tape.write s.dp (wrap ((s.tape.read s.dp).toNat + 1)), pc := s.pc + 1 }
    else if isCmd w codeCellDec then
      { s with tape := s.tape.write s.dp (wrap ((s.tape.read s.dp).toNat - 1)), pc := s.pc + 1 }
    else if isCmd w codeOut then
      { s with out := s.out ++ [s.tape.read s.dp], pc := s.pc + 1 }
    else if isCmd w codeInp then
      match s.iq with
      | [] => { s with pc := s.pc + 1 }
      | x :: rest =>
        if x > 255 then refRaise { s with iq := rest } .badInput
        else { s with iq := rest, tape := s.tape.write s.dp (wrap x), pc := s.pc + 1 }
    else if isCmd w codeLoopStart then
      if s.tape.read s.dp ≠ 0#8 then { s with pc := s.pc + 1 }
      else
        match refScanForward (refP s) s.prog.text.length s.pc with
        | none => refRaise s .unmatchedClosingBracket
        | some m => { s with pc := m + 1 }
    else if isCmd w codeLoopEnd then
      match refScanBackward (refP s) s.pc with
      | none => refRaise s .unmatchedOpeningBracket
      | some m => { s with pc := m }
    else { s with pc := s.pc + 1 }

end Sys2Proof.Machine
end

