-- ==== Sys2Proof/Machine/HostPort.lean ====
section
/-! DEFINITION. The host's side of the core: the reset that constructs a run (R250 to R252), the read index of the
registers (R39 to R42), and the result of a run (R201). -/

namespace Sys2Proof.Machine

/-! ### Reset -/

/-- The state a reset sets up from inputs it has accepted (R250, R251). Nothing of an earlier run is kept (R51). -/
def resetState (p : Params) (text input : List Nat) (tapeLen : Nat) : State where
  tape := []
  tapeLen := tapeLen
  dp := 0
  pc := 0
  prog := { text := text.map charWord, term := terminatorWord }
  progCharBits := p.progCharBits
  inCharBits := p.inCharBits
  termChar := p.termChar
  iq := input
  out := []
  status := .running
  err := .noError

/-- `TERM_CHAR` is one of the eight command codes (R84). -/
def termCharIsCommand : Option Nat → Bool
  | none => false
  | some c => commandCodes.contains c

/-- `n` does not fit in `bits` bits. -/
def tooWide (bits n : Nat) : Bool := decide (2 ^ bits ≤ n)

/-- The text is longer than `PROG_MAX`, where the hardware has one (R10). -/
def tooLong (progMax : Option Nat) (n : Nat) : Bool :=
  match progMax with
  | none => false
  | some m => decide (m < n)

/-- Reset: the construction of a run from the host's inputs (R250), or the refusal of a configuration (R252). The
order in which the grounds are asked for is the model's own (log entry 19). -/
def construct (p : Params) (h : HostInputs) : Result :=
  let input := h.input.getD []
  if h.tapeLen = 0 then .refused .tapeLenZero
  else if termCharIsCommand p.termChar then .refused .termCharIsCommand
  else if h.text.any (tooWide p.progCharBits) then .refused .progCodeTooWide
  else if input.any (tooWide p.inCharBits) then .refused .inputCodeTooWide
  else if tooLong p.progMax h.text.length then .refused .progTooLong
  else .next (resetState p h.text input h.tapeLen)

/-! ### The host's reads between steps -/

/-- The two bits of `STATUS` (R40, D7). -/
def Status.code : Status → BitVec 2
  | .running => 0
  | .terminated => 1
  | .aborted => 2

/-- The three bits of `ERR` (R41, D8). -/
def ErrKind.code : ErrKind → BitVec 3
  | .noError => 0
  | .unmatchedClosingBracket => 1
  | .unmatchedOpeningBracket => 2
  | .badMemoryPointer => 3
  | .badCommandPointer => 4
  | .badInput => 5

/-- The register at a host read index (R39, D25); there is none above 5. -/
def State.hostRead (s : State) : Nat → Option Nat
  | 0 => some s.status.code.toNat
  | 1 => some s.err.code.toNat
  | 2 => some s.pc
  | 3 => some s.dp
  | 4 => some s.tapeLen
  | 5 => some s.prog.len
  | _ => none

/-- The result of a run (R201). -/
structure RunResult where
  status : Status
  err : ErrKind
  tape : Memory
  dp : Nat
  pc : Nat
  iq : List Nat
  out : List Byte
  deriving DecidableEq, Repr

/-- The result, once the run has ended: a state that is still `RUNNING` has none (R201, R233). -/
def State.result (s : State) : Option RunResult :=
  if s.status = .running then none
  else some ⟨s.status, s.err, s.tape, s.dp, s.pc, s.iq, s.out⟩

end Sys2Proof.Machine
end

