-- ==== Sys2Proof/WellFormed.lean ====
section
/-! DEFINITION. Which instruction terms stand for a program word, under a choice of `PROG_CHAR_BITS` and `TERM_CHAR`. -/

namespace Sys2Proof

/-- The code field of an instruction's word. -/
def Instr.code (i : Instr) : Nat := (encode i).code

/-- An instruction is well formed when its code fits in the `b` bits of `PROG_CHAR_BITS` (R80) and `TERM_CHAR` allows it:
a command unless `TERM_CHAR` takes its code away (R84: such a configuration is refused), a sentinel when it is
`TERM_CHAR` itself, a comment when it is a character that is neither a command nor `TERM_CHAR` (R86). -/
def Instr.wf (b : Nat) (termChar : Option Nat) (i : Instr) : Bool :=
  decide (i.code < 2 ^ b) &&
  match i with
  | .halt (.tagged _) => true
  | .halt (.sentinel c) => termChar == some c
  | .ptrInc => termChar != some codePtrInc
  | .ptrDec => termChar != some codePtrDec
  | .cellInc => termChar != some codeCellInc
  | .cellDec => termChar != some codeCellDec
  | .out => termChar != some codeOut
  | .inp => termChar != some codeInp
  | .loopStart => termChar != some codeLoopStart
  | .loopEnd => termChar != some codeLoopEnd
  | .comment c => !commandCodes.contains c && termChar != some c

end Sys2Proof
end

