-- ==== Sys2Proof/Safety.lean ====
section
/-! DEFINITION. The terms claims use: the invariant of a run, the states runs reach, balanced brackets, and what a
state's next step fetches. -/

namespace Sys2Proof.Machine

/-- The tape is in canonical form, lists only cells that exist, and `dp` is on it (R31, R33, R123). -/
abbrev State.TapeOk (s : State) : Prop :=
  s.tape.wf = true ∧ (∀ c ∈ s.tape, c.1 < s.tapeLen) ∧ s.dp < s.tapeLen

/-- The program memory is as loading leaves it, `TERM_CHAR` is a legal one, and `pc` is in `[0, N]` (R11, R81, R84,
R196). -/
abbrev State.ProgOk (s : State) : Prop :=
  (∀ w ∈ s.prog.text, w.tag = false ∧ w.code < 2 ^ s.progCharBits) ∧ s.prog.term = terminatorWord ∧ termCharIsCommand s.termChar = false ∧
    s.pc ≤ s.prog.len

/-- `ERR` is `NONE` unless `STATUS` is `ABORTED` (R41), and no fetch has failed (R196). -/
abbrev State.StatusOk (s : State) : Prop :=
  (s.status = .aborted ↔ s.err ≠ .noError) ∧ s.err ≠ .badCommandPointer

/-- Every queued character is an `IN_CHAR_BITS`-bit code (R12, R46). -/
abbrev State.InputOk (s : State) : Prop := ∀ c ∈ s.iq, c < 2 ^ s.inCharBits

/-- The invariant of a run. -/
abbrev State.Inv (s : State) : Prop := s.TapeOk ∧ s.ProgOk ∧ s.InputOk ∧ s.StatusOk

/-- The states of runs: those a reset constructs, and those a step gives (R232, R250). -/
inductive Reachable : State → Prop where
  | constructed (p : Params) (h : HostInputs) (s : State) : construct p h = .next s → Reachable s
  | stepped (s t : State) : Reachable s → step s = .next t → Reachable t

/-- A run from `s` is safe when no number of steps ends in a fault or a refusal. -/
def State.Safe (s : State) : Prop := ∀ k, ∃ t, core.run k s = .next t

/-- The next step of `s` fetches a word that decodes to `i`. -/
abbrev State.Fetches (s : State) (i : Instr) : Prop := s.fetch.map (decode s.termChar) = some i

/-- The brackets of a list of words, `depth` of them open before it, never close one that is not open and leave none
open (R167). -/
def balancedFrom (depth : Nat) : List PWord → Bool
  | [] => depth == 0
  | w :: ws =>
    if isCmd w codeLoopStart then balancedFrom (depth + 1) ws
    else if isCmd w codeLoopEnd then depth != 0 && balancedFrom (depth - 1) ws
    else balancedFrom depth ws

/-- The words strictly between the indices `i` and `j` are a balanced sequence. -/
def balancedBetween (text : List PWord) (i j : Nat) : Bool :=
  balancedFrom 0 ((text.drop (i + 1)).take (j - (i + 1)))

/-- The word at index `i` of the text is the command of code `c`. -/
def isCmdAt (text : List PWord) (i : Nat) (c : Nat) : Bool :=
  match text[i]? with
  | some w => isCmd w c
  | none => false

end Sys2Proof.Machine
end

