-- ==== Sys2Proof/Certificates/Slice0/Obligations.lean ====
section
/-! DEFINITION. The statements for the provers. Each docstring names the rule of spec/ it formalises, or says which
parts are the spec's own decision or derivation. -/

open Sys2Proof Sys2Proof.Machine

/-! ### Encoding -/

/-- 30_encoding.md sections 1 to 3: the word of a well-formed instruction decodes to that instruction, whatever
`PROG_CHAR_BITS` and `TERM_CHAR` are, with every value of the code field. -/
def Obligations.DecodeGivesBackEncodedInstr : Prop :=
  ∀ (b : Nat) (tc : Option Nat) (i : Instr), i.wf b tc = true → decodeBits tc (encodeBits b i) = i

/-- The other direction: every word of `PROG_CHAR_BITS + 1` bits decodes to a well-formed instruction whose word it
is. -/
def Obligations.EncodeGivesBackDecodedWord : Prop :=
  ∀ (b : Nat) (tc : Option Nat) (w : BitVec (b + 1)),
    encodeBits b (decodeBits tc w) = w ∧ (decodeBits tc w).wf b tc = true

/-- spec/opcode_table.json read row by row with its masks, by ascending priority, agrees with the decoder on every
word (the table stands for `PROG_CHAR_BITS = 21` and
`TERM_CHAR = none`). -/
def Obligations.DecodeFollowsOpcodeTable : Prop :=
  ∀ w : Bits22, tableMnemonic w = some (decodeBits none w).mnemonic

/-- R85: the first of the terminator, the one command that matches, a comment. -/
def Obligations.DecodeTriesTerminatorThenCommandsThenComment : Prop :=
  ∀ (tc : Option Nat) (w : PWord),
    (isTerm tc w = true → ∃ t, decode tc w = .halt t) ∧
    (isTerm tc w = false →
      (isCmd w codePtrInc = true → decode tc w = .ptrInc) ∧
      (isCmd w codePtrDec = true → decode tc w = .ptrDec) ∧
      (isCmd w codeCellInc = true → decode tc w = .cellInc) ∧
      (isCmd w codeCellDec = true → decode tc w = .cellDec) ∧
      (isCmd w codeOut = true → decode tc w = .out) ∧
      (isCmd w codeInp = true → decode tc w = .inp) ∧
      (isCmd w codeLoopStart = true → decode tc w = .loopStart) ∧
      (isCmd w codeLoopEnd = true → decode tc w = .loopEnd) ∧
      ((∀ c ∈ commandCodes, isCmd w c = false) → decode tc w = .comment w.code)) ∧
    (∀ c ∈ commandCodes, ∀ d ∈ commandCodes, isCmd w c = true → isCmd w d = true → c = d) ∧
    commandCodes.Nodup

/-- 30_encoding.md section 2, the opcode map, and the two words the spec's test vectors Q8 and S14 name. -/
def Obligations.WordsOfTheOpcodeMapDecode : Prop :=
  decodeBits none 0b0000000000000000111110#22 = .ptrInc ∧ decodeBits none 0b0000000000000000111100#22 = .ptrDec ∧
  decodeBits none 0b0000000000000000101011#22 = .cellInc ∧ decodeBits none 0b0000000000000000101101#22 = .cellDec ∧
  decodeBits none 0b0000000000000000101110#22 = .out ∧ decodeBits none 0b0000000000000000101100#22 = .inp ∧
  decodeBits none 0b0000000000000001011011#22 = .loopStart ∧ decodeBits none 0b0000000000000001011101#22 = .loopEnd ∧
  decodeBits none 0b1000000000000000000000#22 = .halt (.tagged 0) ∧
  decodeBits none 0x200005#22 = .halt (.tagged 5) ∧ decodeBits none 0x00015B#22 = .comment 0x15B

/-- R83, which rests on the spec's decision D26: `is_cmd` compares the tag and every bit of the code, so a character that
shares only its low byte with a command is a comment. -/
def Obligations.CommandMatchComparesAllBits : Prop :=
  (∀ (b : Nat) (w : BitVec (b + 1)) (c : Nat), isCmd (.ofBits w) c = true ↔
    w.getLsbD b = false ∧ c < 2 ^ b ∧ ∀ k < b, w.getLsbD k = c.testBit k) ∧
  (∀ (tc : Option Nat) (w : PWord), w.tag = false → tc ≠ some w.code → 256 ≤ w.code → decode tc w = .comment w.code)

/-- R86: no word is illegal, and a character that is no command (and not `TERM_CHAR`) only advances the counter. -/
def Obligations.OtherCharactersAreComments : Prop :=
  (∀ (b : Nat) (tc : Option Nat) (w : BitVec (b + 1)), decodeRaw b tc w.toNat = .ok (decodeBits tc w)) ∧
  (∀ (tc : Option Nat) (w : PWord), w.tag = false → w.code ∉ commandCodes → tc ≠ some w.code →
    decode tc w = .comment w.code) ∧
  (∀ (c : Nat) (s : State), exec (.comment c) s = .next { s with pc := s.pc + 1 })

/-! ### The step -/

/-- 44_dispatch_sequencer.md sections 2 to 4: in `RUNNING`, a step whose fetched word decodes to `i` is `exec` of `i`
at the same state, with nothing added around it: the handler writes the next `pc` itself. -/
def Obligations.StepRunsDecodedInstr : Prop :=
  ∀ (s : State) (w : PWord) (i : Instr), s.status = .running → s.fetch = some w → decode s.termChar w = i →
    step s = exec i s

/-- R195: a step of the machine is the spec's pseudocode, transcribed in Machine/Reference.lean with the scans as
the loops of R162 and R163. The premise on `dp` holds in every state of a run. -/
def Obligations.StepIsThePseudocode : Prop :=
  ∀ s : State, s.status = .running → s.dp < s.tapeLen → step s = .next (refStep s)

/-- R192: a terminator, whatever made it one, ends the run and changes nothing else; nothing else ends it so; and
which words it is. -/
def Obligations.TerminatorEndsTheRun : Prop :=
  (∀ (k : Terminator) (s : State), exec (.halt k) s = .next { s with status := .terminated }) ∧
  (∀ (s : State) (w : PWord), s.status = .running → s.fetch = some w → isTerm s.termChar w = true →
    step s = .next { s with status := .terminated }) ∧
  (∀ (s : State) (w : PWord) (t : State), s.status = .running → s.fetch = some w → isTerm s.termChar w = false →
    step s = .next t → t.status ≠ .terminated) ∧
  (∀ s : State, s.Inv → s.status = .running → s.termChar = none →
    (step s = .next { s with status := .terminated } ↔ s.pc = s.prog.len)) ∧
  (∀ (s : State) (c : Nat), s.Inv → s.status = .running → s.termChar = some c →
    (step s = .next { s with status := .terminated } ↔
      s.pc = s.prog.len ∨ s.prog.text[s.pc]? = some (charWord c)))

/-- R193: a word that is neither the terminator nor a command advances `pc` and changes nothing else. -/
def Obligations.CommentOnlyAdvances : Prop :=
  ∀ (s : State) (w : PWord), s.status = .running → s.fetch = some w → isTerm s.termChar w = false →
    (∀ c ∈ commandCodes, isCmd w c = false) → step s = .next { s with pc := s.pc + 1 }

/-- 44_dispatch_sequencer.md section 1: the transitions of `STATUS`, and its initial state. That a step request after
the end changes nothing is the spec's decision D10 (log entry 9). -/
def Obligations.StatusTransitions : Prop :=
  (∀ s t : State, s.status = .running → step s = .next t →
    (t.status = .terminated ↔ ∃ w, s.fetch = some w ∧ isTerm s.termChar w = true) ∧
    (s.fetch = none → t.status = .aborted ∧ t.err = .badCommandPointer) ∧
    (t.status = .aborted → s.err = .noError → t.err ≠ .noError) ∧
    (∀ w, s.fetch = some w → isTerm s.termChar w = false → (∀ c ∈ commandCodes, isCmd w c = false) →
      t.status = .running)) ∧
  (∀ s t : State, s.status ≠ .running → step s = .next t → t = s) ∧
  (∀ (p : Params) (h : HostInputs) (s : State), construct p h = .next s → s.status = .running ∧ s.pc = 0)

/-- R197, the spec's decision D10 (log entry 9), and R201, its decision D19: an ended run does not move, for any
number of step requests, and it has one result; a run that is still `RUNNING` has none. -/
def Obligations.EndedRunsDoNotMove : Prop :=
  (∀ (s : State) (k : Nat), s.status ≠ .running → core.run k s = .next s) ∧
  (∀ s : State, s.result = none ↔ s.status = .running) ∧
  (∀ (s : State) (r : RunResult), s.result = some r →
    r = ⟨s.status, s.err, s.tape, s.dp, s.pc, s.iq, s.out⟩ ∧
    ∀ k t, core.run k s = .next t → t.result = some r)

/-- 10_state.md section 4: what each step does to `pc`, the index of the word it executes. That a step keeps it in
`[0, N]`, the last clause, is R196's law, which the spec derives. -/
def Obligations.NextProgramCounter : Prop :=
  ∀ s t : State, s.status = .running → step s = .next t →
    (t.status = .aborted → t.pc = s.pc) ∧
    (t.status ≠ .aborted → ∃ i, s.Fetches i ∧
      match i with
      | .halt _ => t.pc = s.pc
      | .loopStart => t.pc = s.pc + 1 ∨ ∃ m, scanForward s.prog.text s.pc = some m ∧ t.pc = m + 1
      | .loopEnd => ∃ m, scanBackward s.prog.text s.pc = some m ∧ t.pc = m
      | .ptrInc | .ptrDec | .cellInc | .cellDec | .out | .inp | .comment _ => t.pc = s.pc + 1) ∧
    (s.Inv → t.pc ≤ t.prog.len)

/-- How a word comes to run in this model (log entry 12): after `withFetchWord` the very next step executes the
instruction the decoder reads from that word, under the state's own parameters and under those of the opcode table. -/
def Obligations.PlacedWordRunsNext : Prop :=
  (∀ (s : State) (nbits w : Nat) (i : Instr), decodeRaw s.progCharBits s.termChar (w % 2 ^ nbits) = .ok i →
    step (s.withFetchWord nbits w) = exec i (s.withFetchWord nbits w)) ∧
  (∀ (s : State) (nbits w : Nat) (i : Instr), s.progCharBits = 21 → s.termChar = none →
    decodeTableWord nbits w = some i → step (s.withFetchWord nbits w) = exec i (s.withFetchWord nbits w))

/-! ### Byte-cell ALU -/

/-- R100: `wrap` is the Euclidean remainder, given by the document's formula over a truncating remainder too. -/
def Obligations.WrapIsRemainderMod256 : Prop :=
  (∀ n : Int, ((wrap n).toNat : Int) = (Int.tmod n 256 + 256).tmod 256) ∧
  (∀ n : Int, ((wrap n).toNat : Int) = n.emod 256) ∧
  (∀ (n : Int) (r : Nat), r ≤ 255 → (256 : Int) ∣ n - r → (wrap n).toNat = r) ∧
  wrap 256 = 0#8 ∧ wrap (-1) = 255#8

/-- R101 and R102: `increment` and `decrement` are `wrap` after adding and subtracting 1. -/
def Obligations.IncrementAndDecrementWrap : Prop :=
  (∀ x : Byte, increment x = wrap ((x.toNat : Int) + 1)) ∧ increment 255#8 = 0#8 ∧
  (∀ x : Byte, x.toNat < 255 → (increment x).toNat = x.toNat + 1) ∧
  (∀ x : Byte, decrement x = wrap ((x.toNat : Int) - 1)) ∧ decrement 0#8 = 255#8 ∧
  (∀ x : Byte, 0 < x.toNat → (decrement x).toNat = x.toNat - 1)

/-- R106, which the spec derives: the two are inverse, and `k` of them add or subtract `k`. -/
def Obligations.IncrementAndDecrementAreInverse : Prop :=
  (∀ x : Byte, decrement (increment x) = x ∧ increment (decrement x) = x) ∧
  (∀ (k : Nat) (x : Byte), Nat.repeat increment k x = wrap ((x.toNat : Int) + k)) ∧
  (∀ (k : Nat) (x : Byte), Nat.repeat decrement k x = wrap ((x.toNat : Int) - k)) ∧
  (∀ x : Byte, Nat.repeat increment 256 x = x)

/-- R103: `+` completes wherever `dp` is on the tape, the cell takes `increment` of its value (so 255 gives 0), `pc`
advances, and nothing else changes. -/
def Obligations.CellIncStoresIncrement : Prop :=
  encodeBits 21 .cellInc = 0x00002B#22 ∧
  ∀ s : State, s.TapeOk → ∃ t : State, exec .cellInc s = .next t ∧
    t.tape.read s.dp = increment (s.tape.read s.dp) ∧
    (s.tape.read s.dp = 255#8 → t.tape.read s.dp = 0#8) ∧
    (∀ a, a ≠ s.dp → t.tape.read a = s.tape.read a) ∧
    t = { s with tape := t.tape, pc := s.pc + 1 }

/-- R104: `-` likewise, with `decrement` (so 0 gives 255). -/
def Obligations.CellDecStoresDecrement : Prop :=
  encodeBits 21 .cellDec = 0x00002D#22 ∧
  ∀ s : State, s.TapeOk → ∃ t : State, exec .cellDec s = .next t ∧
    t.tape.read s.dp = decrement (s.tape.read s.dp) ∧
    (s.tape.read s.dp = 0#8 → t.tape.read s.dp = 255#8) ∧
    (∀ a, a ≠ s.dp → t.tape.read a = s.tape.read a) ∧
    t = { s with tape := t.tape, pc := s.pc + 1 }

/-! ### Tape cursor -/

/-- R122: the move is checked before it is made, and the pointer does not wrap at either end. -/
def Obligations.MovePointerIsBoundsChecked : Prop :=
  (∀ (delta : Int) (s : State), delta = 1 ∨ delta = -1 →
    (s.dp + delta < 0 ∨ (s.tapeLen : Int) ≤ s.dp + delta → movePointer delta s = none) ∧
    (0 ≤ s.dp + delta → s.dp + delta < s.tapeLen →
      ∃ d : Nat, (d : Int) = s.dp + delta ∧ movePointer delta s = some { s with dp := d })) ∧
  (∀ s : State, s.dp + 1 = s.tapeLen → exec .ptrInc s = .next { s with status := .aborted, err := .badMemoryPointer }) ∧
  (∀ s : State, s.dp = 0 → exec .ptrDec s = .next { s with status := .aborted, err := .badMemoryPointer })

/-- R120: `>` moves right inside the tape, and at its last cell aborts with nothing moved. -/
def Obligations.PtrIncMovesRight : Prop :=
  encodeBits 21 .ptrInc = 0x00003E#22 ∧
  (∀ s : State, s.dp + 1 < s.tapeLen → exec .ptrInc s = .next { s with dp := s.dp + 1, pc := s.pc + 1 }) ∧
  (∀ s : State, s.tapeLen ≤ s.dp + 1 →
    exec .ptrInc s = .next { s with status := .aborted, err := .badMemoryPointer })

/-- R121: `<` moves left, and at cell 0 aborts with nothing moved. The premise on `dp` holds in every state of a run
(R33). -/
def Obligations.PtrDecMovesLeft : Prop :=
  encodeBits 21 .ptrDec = 0x00003C#22 ∧
  (∀ s : State, s.dp < s.tapeLen → 0 < s.dp →
    exec .ptrDec s = .next { s with dp := s.dp - 1, pc := s.pc + 1 }) ∧
  (∀ s : State, s.dp = 0 → exec .ptrDec s = .next { s with status := .aborted, err := .badMemoryPointer })

/-- R34: only `>` and `<` write `dp`, by one cell; the commands that touch a cell touch the one at `dp`. -/
def Obligations.OnlyCursorCommandsWriteDp : Prop :=
  ∀ (i : Instr) (s t : State), exec i s = .next t →
    (t.dp ≠ s.dp → (i = .ptrInc ∧ t.dp = s.dp + 1) ∨ (i = .ptrDec ∧ t.dp + 1 = s.dp)) ∧
    (∀ a, t.tape.read a ≠ s.tape.read a → a = s.dp) ∧
    (t.out ≠ s.out → t.out = s.out ++ [s.tape.read s.dp]) ∧
    (i = .loopStart → t.pc ≠ s.pc + 1 → s.tape.read s.dp = 0)

/-- R123, which the spec derives from R122 and the decision `dp = 0` at reset (D4, log entry 2): `dp` is on the tape
in every state of a run. -/
def Obligations.DataPointerStaysOnTheTape : Prop :=
  (∀ s : State, Reachable s → s.dp < s.tapeLen) ∧
  (∀ s t : State, s.dp < s.tapeLen → step s = .next t → t.dp < t.tapeLen)

/-! ### Character I/O -/

/-- R140: `.` appends the current cell's value, 0 included, to the output stream and advances. -/
def Obligations.OutEmitsCurrentCell : Prop :=
  encodeBits 21 .out = 0x00002E#22 ∧
  (∀ s : State, s.dp < s.tapeLen →
    exec .out s = .next { s with out := s.out ++ [s.tape.read s.dp], pc := s.pc + 1 })

/-- 42_io.md section 1: `,` on an empty queue, on a code up to 255, and on a code above 255. That the failing
character is gone from the queue and `pc` stays is the spec's decision D9 (log entry 13); that the check is kept is
its decision D12 (log entry 14). -/
def Obligations.InpReadsOneCharacter : Prop :=
  encodeBits 21 .inp = 0x00002C#22 ∧
  (∀ s : State, s.iq = [] → exec .inp s = .next { s with pc := s.pc + 1 }) ∧
  (∀ (s : State) (c : Nat) (rest : List Nat), s.TapeOk → s.iq = c :: rest → c ≤ 255 →
    ∃ t : State, exec .inp s = .next t ∧ (t.tape.read s.dp).toNat = c ∧
      (∀ a, a ≠ s.dp → t.tape.read a = s.tape.read a) ∧
      t = { s with tape := t.tape, iq := rest, pc := s.pc + 1 }) ∧
  (∀ (s : State) (c : Nat) (rest : List Nat), s.iq = c :: rest → 255 < c →
    exec .inp s = .next { s with iq := rest, status := .aborted, err := .badInput })

/-- R142, which the spec derives from R141: with 8-bit input `BAD_INPUT` cannot happen. -/
def Obligations.ByteInputNeverAborts : Prop :=
  ∀ s : State, s.TapeOk → (∀ c ∈ s.iq, c < 256) →
    ∃ t : State, exec .inp s = .next t ∧ t.status = s.status ∧ t.err = s.err ∧ t.pc = s.pc + 1 ∧
      ∀ c ∈ t.iq, c < 256

/-- R46: only `,` changes the queue, by removing its head; at reset it is the host's string, or empty. -/
def Obligations.InputQueueOnlyLosesItsHead : Prop :=
  (∀ s t : State, step s = .next t →
    t.iq = s.iq ∨ (s.status = .running ∧ s.Fetches .inp ∧ ∃ c, s.iq = c :: t.iq)) ∧
  (∀ (p : Params) (h : HostInputs) (s : State), construct p h = .next s →
    s.iq = h.input.getD [])

/-- R143, over runs: the queue is consumed from its head, and the output only grows (R47, R144, which the spec partly
derives). -/
def Obligations.StreamsMoveInOrder : Prop :=
  ∀ (k : Nat) (s t : State), core.run k s = .next t →
    (∃ used, s.iq = used ++ t.iq ∧ used.length ≤ k) ∧ (∃ new, t.out = s.out ++ new ∧ new.length ≤ k)

/-- 20_memory.md section 4: one value per executed `.`, and nothing else writes the output stream. -/
def Obligations.OnlyOutWritesTheOutput : Prop :=
  ∀ s t : State, step s = .next t →
    (s.status = .running ∧ s.Fetches .out → t.out = s.out ++ [s.tape.read s.dp]) ∧
    (¬ (s.status = .running ∧ s.Fetches .out) → t.out = s.out)

/-! ### Bracket scanner -/

/-- R162: `ScanForward` is the spec's loop over the indices `p + 1` to `N - 1`. -/
def Obligations.ScanForwardIsTheLoop : Prop :=
  ∀ (text : List PWord) (p : Nat),
    scanForward text p = refScanForward (fun j => text.getD j (charWord 0)) text.length p

/-- R163: `ScanBackward` is the spec's loop over the indices `p - 1` down to 0. -/
def Obligations.ScanBackwardIsTheLoop : Prop :=
  ∀ (text : List PWord) (p : Nat), p ≤ text.length →
    scanBackward text p = refScanBackward (fun j => text.getD j (charWord 0)) p

/-- R167, which the spec derives: the matches agree in both directions, for every text, well nested or not, and both
hold exactly when the brackets strictly between are balanced. -/
def Obligations.ScansAgreeInBothDirections : Prop :=
  ∀ (text : List PWord) (i j : Nat), isCmdAt text i codeLoopStart = true → isCmdAt text j codeLoopEnd = true →
    (scanForward text i = some j ↔ scanBackward text j = some i) ∧
    (scanForward text i = some j ↔ i < j ∧ balancedBetween text i j = true)

/-- R166, which the spec derives: only which words are `[` and `]` matters to a scan, and what it finds is a bracket
of the other kind, on the side it looked at, inside the text. -/
def Obligations.ScansSeeOnlyBracketsOfTheText : Prop :=
  (∀ (text text' : List PWord) (p : Nat), text.length = text'.length →
    (∀ k, isCmdAt text k codeLoopStart = isCmdAt text' k codeLoopStart) →
    (∀ k, isCmdAt text k codeLoopEnd = isCmdAt text' k codeLoopEnd) →
    scanForward text p = scanForward text' p ∧ scanBackward text p = scanBackward text' p) ∧
  (∀ (text : List PWord) (p m : Nat), scanForward text p = some m →
    p < m ∧ m < text.length ∧ isCmdAt text m codeLoopEnd = true) ∧
  (∀ (text : List PWord) (p m : Nat), scanBackward text p = some m →
    m < p ∧ m < text.length ∧ isCmdAt text m codeLoopStart = true)

/-- R160: `[` enters the loop on a non-zero cell without a scan, and otherwise skips past the matching `]`, at most to
the terminator, or aborts; at the last word the scan is empty. -/
def Obligations.LoopStartEntersOrSkips : Prop :=
  encodeBits 21 .loopStart = 0x00005B#22 ∧
  (∀ s : State, s.dp < s.tapeLen → s.tape.read s.dp ≠ 0#8 → exec .loopStart s = .next { s with pc := s.pc + 1 }) ∧
  (∀ (s : State) (m : Nat), s.dp < s.tapeLen → s.tape.read s.dp = 0#8 → scanForward s.prog.text s.pc = some m →
    exec .loopStart s = .next { s with pc := m + 1 } ∧ m + 1 ≤ s.prog.len) ∧
  (∀ s : State, s.dp < s.tapeLen → s.tape.read s.dp = 0#8 → scanForward s.prog.text s.pc = none →
    exec .loopStart s = .next { s with status := .aborted, err := .unmatchedClosingBracket }) ∧
  (∀ s : State, s.prog.len ≤ s.pc + 1 → scanForward s.prog.text s.pc = none)

/-- R161: `]` jumps to the matching `[` whatever the cell holds, so that the next fetch finds that `[`, or aborts; at
index 0 the scan is empty. -/
def Obligations.LoopEndJumpsBack : Prop :=
  encodeBits 21 .loopEnd = 0x00005D#22 ∧
  (∀ (s : State) (m : Nat), scanBackward s.prog.text s.pc = some m →
    exec .loopEnd s = .next { s with pc := m } ∧ isCmdAt s.prog.text m codeLoopStart = true) ∧
  (∀ s : State, scanBackward s.prog.text s.pc = none →
    exec .loopEnd s = .next { s with status := .aborted, err := .unmatchedOpeningBracket }) ∧
  (∀ s : State, s.pc = 0 → scanBackward s.prog.text s.pc = none)

/-! ### Errors -/

/-- R220: when `UNMATCHED_CLOSING_BRACKET` is raised, and what it records. -/
def Obligations.UnmatchedClosingBracketRaisedExactlyWhen : Prop :=
  ErrKind.unmatchedClosingBracket.code = 1#3 ∧
  ∀ s t : State, s.status = .running → s.err = .noError → s.dp < s.tapeLen → step s = .next t →
    ((t.status = .aborted ∧ t.err = .unmatchedClosingBracket) ↔
      s.Fetches .loopStart ∧ s.tape.read s.dp = 0#8 ∧ scanForward s.prog.text s.pc = none) ∧
    (t.err = .unmatchedClosingBracket → t.status = .aborted ∧ t.pc = s.pc)

/-- R221: when `UNMATCHED_OPENING_BRACKET` is raised, and what it records. -/
def Obligations.UnmatchedOpeningBracketRaisedExactlyWhen : Prop :=
  ErrKind.unmatchedOpeningBracket.code = 2 ∧
  ∀ s t : State, s.status = .running → s.err = .noError → s.dp < s.tapeLen → step s = .next t →
    ((t.status = .aborted ∧ t.err = .unmatchedOpeningBracket) ↔
      s.Fetches .loopEnd ∧ scanBackward s.prog.text s.pc = none) ∧
    (t.err = .unmatchedOpeningBracket → t.status = .aborted ∧ t.pc = s.pc)

/-- R222: when `BAD_MEMORY_POINTER` is raised, and what it records. -/
def Obligations.BadMemoryPointerRaisedExactlyWhen : Prop :=
  ErrKind.badMemoryPointer.code = 3 ∧
  ∀ s t : State, s.status = .running → s.err = .noError → s.dp < s.tapeLen → step s = .next t →
    ((t.status = .aborted ∧ t.err = .badMemoryPointer) ↔
      (s.Fetches .ptrInc ∧ s.dp + 1 = s.tapeLen) ∨ (s.Fetches .ptrDec ∧ s.dp = 0)) ∧
    (t.err = .badMemoryPointer → t.status = .aborted ∧ t.dp = s.dp ∧ t.pc = s.pc)

/-- R223: `BAD_COMMAND_POINTER` is raised by the fetch alone, before decode, and no run reaches it. -/
def Obligations.BadCommandPointerRaisedExactlyWhen : Prop :=
  ErrKind.badCommandPointer.code = 4 ∧
  (∀ s : State, s.status = .running → s.prog.len < s.pc →
    step s = .next { s with status := .aborted, err := .badCommandPointer }) ∧
  (∀ s t : State, s.status = .running → s.err = .noError → step s = .next t → t.err = .badCommandPointer →
    s.prog.len < s.pc) ∧
  (∀ s : State, Reachable s → s.err ≠ .badCommandPointer)

/-- R225, with the spec's decision D9 (log entry 13): when `BAD_INPUT` is raised, and what it records. -/
def Obligations.BadInputRaisedExactlyWhen : Prop :=
  ErrKind.badInput.code = 5 ∧
  ∀ s t : State, s.status = .running → s.err = .noError → s.dp < s.tapeLen → step s = .next t →
    ((t.status = .aborted ∧ t.err = .badInput) ↔
      s.Fetches .inp ∧ ∃ c rest, s.iq = c :: rest ∧ 255 < c) ∧
    (t.err = .badInput → t.status = .aborted ∧ t.pc = s.pc ∧ ∃ c, s.iq = c :: t.iq ∧ 255 < c)

/-- R224 and R226, with the spec's decision D9 (log entry 13): a step that aborts writes `STATUS` and `ERR` and nothing
else, but that a failing `,` has removed its character. -/
def Obligations.AbortWritesOnlyStatusAndErr : Prop :=
  ∀ s t : State, s.status = .running → step s = .next t → t.status = .aborted →
    t.err ≠ .noError ∧ t = { s with status := .aborted, err := t.err, iq := t.iq } ∧
    (t.iq = s.iq ∨ (t.err = .badInput ∧ ∃ c, s.iq = c :: t.iq ∧ 255 < c))

/-- 60_exceptions.md section 2, the table of R227, which the spec derives: the kinds each step can raise. -/
def Obligations.EachCommandRaisesAtMostOneKind : Prop :=
  ∀ (i : Instr) (s t : State), s.status = .running → exec i s = .next t → t.status = .aborted →
    match i with
    | .ptrInc | .ptrDec => t.err = .badMemoryPointer
    | .inp => t.err = .badInput
    | .loopStart => t.err = .unmatchedClosingBracket
    | .loopEnd => t.err = .unmatchedOpeningBracket
    | .halt _ | .cellInc | .cellDec | .out | .comment _ => False

/-! ### Frames and whole-machine rules -/

/-- What the commands that store to no cell leave unchanged: `>` may write `dp`, `.` the output, `[` and `]` neither;
the terminator may write `STATUS`; an abort writes `STATUS` and `ERR` (20_memory.md section 2, 10_state.md). -/
def Obligations.NonStoringCommandsFrame : Prop :=
  ∀ (i : Instr) (s t : State),
    (∃ k, i = .halt k) ∨ i = .ptrInc ∨ i = .ptrDec ∨ i = .out ∨ i = .loopStart ∨ i = .loopEnd ∨ (∃ c, i = .comment c) →
    exec i s = .next t →
    (∀ a, t.tape.read a = s.tape.read a) ∧ t.tape = s.tape ∧
    t.tapeLen = s.tapeLen ∧ t.prog = s.prog ∧ t.progCharBits = s.progCharBits ∧
    t.inCharBits = s.inCharBits ∧ t.termChar = s.termChar ∧ t.iq = s.iq ∧
    (i ≠ .ptrInc → i ≠ .ptrDec → t.dp = s.dp) ∧
    (i ≠ .out → t.out = s.out) ∧
    ((t.status = s.status ∧ t.err = s.err) ∨
     ((∃ k, i = .halt k) ∧ t.status = .terminated ∧ t.err = s.err) ∨
     ((i = .ptrInc ∨ i = .ptrDec ∨ i = .loopStart ∨ i = .loopEnd) ∧ t.status = .aborted ∧ t.err ≠ .noError))

/-- What `+`, `-` and `,` leave unchanged: they store one byte at `dp`, or none; `,` may take the head of the queue,
and alone of the three may abort (20_memory.md section 2, 42_io.md section 1). -/
def Obligations.StoringCommandsFrame : Prop :=
  ∀ (i : Instr) (s t : State), i = .cellInc ∨ i = .cellDec ∨ i = .inp → exec i s = .next t →
    (∀ a, a ≠ s.dp → t.tape.read a = s.tape.read a) ∧
    (i = .inp → s.iq = [] → t.tape = s.tape) ∧ (t.status ≠ s.status → t.tape = s.tape) ∧
    t.tapeLen = s.tapeLen ∧ t.prog = s.prog ∧ t.progCharBits = s.progCharBits ∧
    t.inCharBits = s.inCharBits ∧ t.termChar = s.termChar ∧ t.dp = s.dp ∧ t.out = s.out ∧
    (i ≠ .inp → t.iq = s.iq) ∧
    ((t.status = s.status ∧ t.err = s.err) ∨ (i = .inp ∧ t.status = .aborted ∧ t.err = .badInput))

/-- 20_memory.md section 2 and 10_state.md section 5: a step sees the tape only through the current cell. On a tape
that agrees there, everything else of the next state is the same, and so is that cell. -/
def Obligations.StepSeesOnlyTheCurrentCell : Prop :=
  ∀ (s t : State) (m : Memory), s.tape.wf = true → m.wf = true → m.read s.dp = s.tape.read s.dp →
    step s = .next t →
    ∃ m' : Memory, step { s with tape := m } = .next { t with tape := m' } ∧
      m'.read s.dp = t.tape.read s.dp ∧ ∀ a, a ≠ s.dp → m'.read a = m.read a

/-- R45: the program memory is the host's text and the terminator after a reset, and no step writes it. -/
def Obligations.ProgramMemoryIsReadOnly : Prop :=
  (∀ (p : Params) (h : HostInputs) (s : State), construct p h = .next s →
    s.prog.len = h.text.length ∧
    (∀ i n, h.text[i]? = some n → ∃ w, s.prog.word? i = some w ∧ w.tag = false ∧ w.code = n) ∧
    ∃ w, s.prog.word? h.text.length = some w ∧ w.tag = true ∧ w.code = 0) ∧
  (∀ s t : State, step s = .next t → t.prog = s.prog)

/-- R42: `TAPE_LEN` and `PROG_LEN` take the host's values at reset and hold them for the run. -/
def Obligations.ConfigurationIsFixedForTheRun : Prop :=
  (∀ (p : Params) (h : HostInputs) (s : State), construct p h = .next s →
    s.tapeLen = h.tapeLen ∧ s.prog.len = h.text.length) ∧
  (∀ (k : Nat) (s t : State), core.run k s = .next t → t.tapeLen = s.tapeLen ∧ t.prog.len = s.prog.len)

/-- R31: every cell is 0 after a reset, and the tape keeps its length in every run. -/
def Obligations.TapeStartsAllZero : Prop :=
  (∀ (p : Params) (h : HostInputs) (s : State), construct p h = .next s →
    s.tapeLen = h.tapeLen ∧ ∀ a, a < s.tapeLen → s.tape.read a = 0#8) ∧
  (∀ (k : Nat) (s t : State), core.run k s = .next t → t.tapeLen = s.tapeLen)

/-- The canonical form of the model (log entry 17): tapes that read the same everywhere are the same data. -/
def Obligations.TapesThatReadAlikeAreEqual : Prop :=
  ∀ m n : Memory, m.wf = true → n.wf = true → (∀ a, m.read a = n.read a) → m = n

/-! ### The invariant, reset, and the host -/

/-- 41_tape_cursor.md section 3, 44_dispatch_sequencer.md section 5 and 10_state.md section 6: every step keeps the
invariant of a run. -/
def Obligations.StepKeepsInvariant : Prop :=
  ∀ s t : State, s.Inv → step s = .next t → t.Inv

/-- The invariant holds at `State.reset`, whose inputs are the model's choice (log entry 1). -/
def Obligations.ResetHasInvariant : Prop := State.reset.Inv

/-- Every state a reset constructs has the invariant. -/
def Obligations.ConstructedStatesHaveInvariant : Prop :=
  ∀ (p : Params) (h : HostInputs) (s : State), construct p h = .next s → s.Inv

/-- No run from a state with the invariant ends in a fault or a refusal, however many steps it takes: the model stops
nowhere that the spec goes on. -/
def Obligations.RunsNeverStop : Prop := ∀ s : State, s.Inv → s.Safe

/-- R196, which the spec derives: `pc` is in `[0, N]` in every state of a run. -/
def Obligations.ProgramCounterStaysInRange : Prop :=
  (∀ s : State, Reachable s → s.pc ≤ s.prog.len) ∧
  (∀ s t : State, s.Inv → s.status = .running → step s = .next t → t.pc ≤ t.prog.len)

/-- 70_reset_and_hazards.md section 1: a reset the core accepts leaves every piece of state as R250 and R251 say; the
initial `dp` is the spec's decision D4 (log entry 2). -/
def Obligations.ResetSetsEveryState : Prop :=
  ∀ (p : Params) (h : HostInputs) (s : State), construct p h = .next s →
    (∀ a, s.tape.read a = 0#8) ∧ s.dp = 0 ∧ s.pc = 0 ∧ s.out = [] ∧ s.status = .running ∧ s.err = .noError ∧
    s.tapeLen = h.tapeLen ∧ s.progCharBits = p.progCharBits ∧ s.inCharBits = p.inCharBits ∧ s.termChar = p.termChar ∧
    s.iq = h.input.getD [] ∧
    s.prog.extended.map (fun w => (w.toBits p.progCharBits).toNat) = h.text ++ [2 ^ p.progCharBits]

/-- 70_reset_and_hazards.md section 1, R252, which rests on the spec's decisions D2, D3, D5, D6 and D12: a reset is
accepted exactly when none of the grounds for refusing it holds. Every width of a character is accepted. -/
def Obligations.ResetIsRefusedExactlyWhen : Prop :=
  ∀ (p : Params) (h : HostInputs),
    ((∃ s, construct p h = .next s) ↔
      h.tapeLen ≠ 0 ∧ (∀ c, p.termChar = some c → c ∉ commandCodes) ∧
      (∀ n ∈ h.text, n < 2 ^ p.progCharBits) ∧ (∀ n ∈ h.input.getD [], n < 2 ^ p.inCharBits) ∧
      (∀ m, p.progMax = some m → h.text.length ≤ m)) ∧
    (∀ r, construct p h ≠ .fault r)

/-- 10_state.md section 6, R39 to R41, which rest on the spec's decisions D7, D8 and D25: the six host registers and
the numbers of `STATUS` and `ERR`. -/
def Obligations.HostReadsTheRegisters : Prop :=
  (∀ s : State, s.hostRead 0 = some s.status.code.toNat ∧ s.hostRead 1 = some s.err.code.toNat ∧
    s.hostRead 2 = some s.pc ∧ s.hostRead 3 = some s.dp ∧ s.hostRead 4 = some s.tapeLen ∧
    s.hostRead 5 = some s.prog.len ∧ ∀ n, 6 ≤ n → s.hostRead n = none) ∧
  Status.running.code = 0 ∧ Status.terminated.code = 1 ∧ Status.aborted.code = 2 ∧
  ErrKind.noError.code = 0 ∧ ErrKind.unmatchedClosingBracket.code = 1 ∧ ErrKind.unmatchedOpeningBracket.code = 2 ∧
  ErrKind.badMemoryPointer.code = 3 ∧ ErrKind.badCommandPointer.code = 4 ∧ ErrKind.badInput.code = 5 ∧
  (∀ a b : Status, a.code = b.code → a = b) ∧ (∀ a b : ErrKind, a.code = b.code → a = b)

/-- 00_scope.md section 4, R11, R12 and R14, with the spec's decisions D2, D12 and D15 (log entries 3 and 5): in a state
of a run every register fits the width the spec gives it, for any `PC_BITS` and `DP_BITS` that meet the spec's two
inequalities, and every character fits the width of its kind. -/
def Obligations.RegistersFitTheirWidths : Prop :=
  (∀ (s : State) (pcBits dpBits : Nat), Reachable s → s.prog.len < 2 ^ pcBits → s.tapeLen ≤ 2 ^ dpBits →
    s.pc < 2 ^ pcBits ∧ s.prog.len < 2 ^ pcBits ∧ s.dp < 2 ^ dpBits ∧ s.tapeLen < 2 ^ (dpBits + 1)) ∧
  (∀ s : State, Reachable s →
    (∀ c ∈ s.iq, c < 2 ^ s.inCharBits) ∧ (∀ w ∈ s.prog.extended, w.code < 2 ^ s.progCharBits))
end

