-- ==== Sys2Proof/Laws/Alu.lean ====
section
/-! SUPPORT. `wrap` on values that are already cells, and the state a write of such a value gives. -/

namespace Sys2Proof.Machine

/-- `wrap` is the identity on cell values (R107). -/
@[simp] theorem wrap_toNat_byte (x : Byte) : wrap x.toNat = x := by
  apply BitVec.eq_of_toNat_eq
  have := x.isLt
  simp only [wrap, BitVec.toNat_ofNat]
  omega

/-- Writing a cell value stores that value. -/
theorem State.writeCurrent_byte (s : State) (x : Byte) :
    s.writeCurrent x.toNat = { s with tape := s.tape.write s.dp x } := by
  simp [State.writeCurrent]

end Sys2Proof.Machine
end

