-- ==== Sys2Proof/Laws/Encoding.lean ====
section
/-! SUPPORT. The bits of a program word, and what the matches of the decoder say. -/

namespace Sys2Proof

/-! ### Bits and fields -/

/-- The fields of the bits of a word are the word, if its code fits. -/
theorem PWord.ofBits_toBits {b : Nat} {w : PWord} (h : w.code < 2 ^ b) : PWord.ofBits (w.toBits b) = w := by
  cases w
  simp_all [PWord.ofBits, PWord.toBits, BitVec.msb_cons, BitVec.setWidth_cons, Nat.mod_eq_of_lt]

/-- The bits of the fields of a word are the word. -/
@[simp] theorem PWord.toBits_ofBits {b : Nat} (w : BitVec (b + 1)) : (PWord.ofBits w).toBits b = w := by
  simp [PWord.ofBits, PWord.toBits, -BitVec.toNat_setWidth, BitVec.cons_msb_setWidth]

theorem PWord.ofBits_code_lt {b : Nat} (w : BitVec (b + 1)) : (PWord.ofBits w).code < 2 ^ b := (w.setWidth b).isLt

@[simp] theorem PWord.ofBits_tag {b : Nat} (w : BitVec (b + 1)) : (PWord.ofBits w).tag = w.msb := rfl

@[simp] theorem charWord_tag (c : Nat) : (charWord c).tag = false := rfl
@[simp] theorem charWord_code (c : Nat) : (charWord c).code = c := rfl
@[simp] theorem terminatorWord_tag : terminatorWord.tag = true := rfl
@[simp] theorem terminatorWord_code : terminatorWord.code = 0 := rfl

/-- The bits of a word, as a number. -/
theorem PWord.toNat_toBits {b : Nat} {w : PWord} (h : w.code < 2 ^ b) :
    (w.toBits b).toNat = w.tag.toNat * 2 ^ b + w.code := by
  rw [PWord.toBits, BitVec.toNat_cons', Nat.shiftLeft_eq, BitVec.toNat_ofNat, Nat.mod_eq_of_lt h]

/-! ### The matches -/

/-- A word whose tag is clear is the word of its character. -/
theorem eq_charWord_of_tag {w : PWord} (h : w.tag = false) : w = charWord w.code := by
  cases w; simp_all [charWord]

theorem isCmd_iff {w : PWord} {c : Nat} : isCmd w c = true ↔ w = charWord c := by
  cases w; simp [isCmd, charWord]

@[simp] theorem isCmd_charWord (c d : Nat) : isCmd (charWord c) d = decide (c = d) := by
  by_cases h : c = d <;> simp [isCmd, h]

@[simp] theorem isCmd_tagged (c d : Nat) : isCmd { tag := true, code := c } d = false := rfl

@[simp] theorem isTerm_tagged (tc : Option Nat) (c : Nat) : isTerm tc { tag := true, code := c } = true := rfl

@[simp] theorem isTerm_charWord (tc : Option Nat) (c : Nat) : isTerm tc (charWord c) = (tc == some c) := by
  cases tc with
  | none => rfl
  | some d =>
    by_cases h : c = d
    · simp [isTerm, isSentinel, h]
    · have : d ≠ c := fun e => h e.symm
      simp [isTerm, isSentinel, h, this]

end Sys2Proof
end

