-- ==== Sys2Proof/Laws/State.lean ====
section
/-! SUPPORT. One lemma per field per named update of the state. -/

namespace Sys2Proof.Machine


/-! ### `advance` -/

@[simp] theorem State.advance_tape (s : State) : s.advance.tape = s.tape := rfl
@[simp] theorem State.advance_tapeLen (s : State) : s.advance.tapeLen = s.tapeLen := rfl
@[simp] theorem State.advance_dp (s : State) : s.advance.dp = s.dp := rfl
@[simp] theorem State.advance_pc (s : State) : s.advance.pc = s.pc + 1 := rfl
@[simp] theorem State.advance_prog (s : State) : s.advance.prog = s.prog := rfl
@[simp] theorem State.advance_progCharBits (s : State) : s.advance.progCharBits = s.progCharBits := rfl
@[simp] theorem State.advance_inCharBits (s : State) : s.advance.inCharBits = s.inCharBits := rfl
@[simp] theorem State.advance_termChar (s : State) : s.advance.termChar = s.termChar := rfl
@[simp] theorem State.advance_iq (s : State) : s.advance.iq = s.iq := rfl
@[simp] theorem State.advance_out (s : State) : s.advance.out = s.out := rfl
@[simp] theorem State.advance_status (s : State) : s.advance.status = s.status := rfl
@[simp] theorem State.advance_err (s : State) : s.advance.err = s.err := rfl

/-! ### `jump` -/

@[simp] theorem State.jump_tape (s : State) (n : Nat) : (s.jump n).tape = s.tape := rfl
@[simp] theorem State.jump_tapeLen (s : State) (n : Nat) : (s.jump n).tapeLen = s.tapeLen := rfl
@[simp] theorem State.jump_dp (s : State) (n : Nat) : (s.jump n).dp = s.dp := rfl
@[simp] theorem State.jump_pc (s : State) (n : Nat) : (s.jump n).pc = n := rfl
@[simp] theorem State.jump_prog (s : State) (n : Nat) : (s.jump n).prog = s.prog := rfl
@[simp] theorem State.jump_progCharBits (s : State) (n : Nat) : (s.jump n).progCharBits = s.progCharBits := rfl
@[simp] theorem State.jump_inCharBits (s : State) (n : Nat) : (s.jump n).inCharBits = s.inCharBits := rfl
@[simp] theorem State.jump_termChar (s : State) (n : Nat) : (s.jump n).termChar = s.termChar := rfl
@[simp] theorem State.jump_iq (s : State) (n : Nat) : (s.jump n).iq = s.iq := rfl
@[simp] theorem State.jump_out (s : State) (n : Nat) : (s.jump n).out = s.out := rfl
@[simp] theorem State.jump_status (s : State) (n : Nat) : (s.jump n).status = s.status := rfl
@[simp] theorem State.jump_err (s : State) (n : Nat) : (s.jump n).err = s.err := rfl

/-! ### `raise` -/

@[simp] theorem State.raise_tape (s : State) (k : ErrKind) : (s.raise k).tape = s.tape := rfl
@[simp] theorem State.raise_tapeLen (s : State) (k : ErrKind) : (s.raise k).tapeLen = s.tapeLen := rfl
@[simp] theorem State.raise_dp (s : State) (k : ErrKind) : (s.raise k).dp = s.dp := rfl
@[simp] theorem State.raise_pc (s : State) (k : ErrKind) : (s.raise k).pc = s.pc := rfl
@[simp] theorem State.raise_prog (s : State) (k : ErrKind) : (s.raise k).prog = s.prog := rfl
@[simp] theorem State.raise_progCharBits (s : State) (k : ErrKind) : (s.raise k).progCharBits = s.progCharBits := rfl
@[simp] theorem State.raise_inCharBits (s : State) (k : ErrKind) : (s.raise k).inCharBits = s.inCharBits := rfl
@[simp] theorem State.raise_termChar (s : State) (k : ErrKind) : (s.raise k).termChar = s.termChar := rfl
@[simp] theorem State.raise_iq (s : State) (k : ErrKind) : (s.raise k).iq = s.iq := rfl
@[simp] theorem State.raise_out (s : State) (k : ErrKind) : (s.raise k).out = s.out := rfl
@[simp] theorem State.raise_status (s : State) (k : ErrKind) : (s.raise k).status = .aborted := rfl
@[simp] theorem State.raise_err (s : State) (k : ErrKind) : (s.raise k).err = k := rfl

/-! ### `emit` -/

@[simp] theorem State.emit_tape (s : State) (v : Byte) : (s.emit v).tape = s.tape := rfl
@[simp] theorem State.emit_tapeLen (s : State) (v : Byte) : (s.emit v).tapeLen = s.tapeLen := rfl
@[simp] theorem State.emit_dp (s : State) (v : Byte) : (s.emit v).dp = s.dp := rfl
@[simp] theorem State.emit_pc (s : State) (v : Byte) : (s.emit v).pc = s.pc := rfl
@[simp] theorem State.emit_prog (s : State) (v : Byte) : (s.emit v).prog = s.prog := rfl
@[simp] theorem State.emit_progCharBits (s : State) (v : Byte) : (s.emit v).progCharBits = s.progCharBits := rfl
@[simp] theorem State.emit_inCharBits (s : State) (v : Byte) : (s.emit v).inCharBits = s.inCharBits := rfl
@[simp] theorem State.emit_termChar (s : State) (v : Byte) : (s.emit v).termChar = s.termChar := rfl
@[simp] theorem State.emit_iq (s : State) (v : Byte) : (s.emit v).iq = s.iq := rfl
@[simp] theorem State.emit_out (s : State) (v : Byte) : (s.emit v).out = s.out ++ [v] := rfl
@[simp] theorem State.emit_status (s : State) (v : Byte) : (s.emit v).status = s.status := rfl
@[simp] theorem State.emit_err (s : State) (v : Byte) : (s.emit v).err = s.err := rfl

/-! ### `writeCurrent` -/

@[simp] theorem State.writeCurrent_tape (s : State) (v : Int) : (s.writeCurrent v).tape = s.tape.write s.dp (wrap v) := rfl
@[simp] theorem State.writeCurrent_tapeLen (s : State) (v : Int) : (s.writeCurrent v).tapeLen = s.tapeLen := rfl
@[simp] theorem State.writeCurrent_dp (s : State) (v : Int) : (s.writeCurrent v).dp = s.dp := rfl
@[simp] theorem State.writeCurrent_pc (s : State) (v : Int) : (s.writeCurrent v).pc = s.pc := rfl
@[simp] theorem State.writeCurrent_prog (s : State) (v : Int) : (s.writeCurrent v).prog = s.prog := rfl
@[simp] theorem State.writeCurrent_progCharBits (s : State) (v : Int) : (s.writeCurrent v).progCharBits = s.progCharBits := rfl
@[simp] theorem State.writeCurrent_inCharBits (s : State) (v : Int) : (s.writeCurrent v).inCharBits = s.inCharBits := rfl
@[simp] theorem State.writeCurrent_termChar (s : State) (v : Int) : (s.writeCurrent v).termChar = s.termChar := rfl
@[simp] theorem State.writeCurrent_iq (s : State) (v : Int) : (s.writeCurrent v).iq = s.iq := rfl
@[simp] theorem State.writeCurrent_out (s : State) (v : Int) : (s.writeCurrent v).out = s.out := rfl
@[simp] theorem State.writeCurrent_status (s : State) (v : Int) : (s.writeCurrent v).status = s.status := rfl
@[simp] theorem State.writeCurrent_err (s : State) (v : Int) : (s.writeCurrent v).err = s.err := rfl

/-! ### `dequeue` -/

@[simp] theorem State.dequeue_snd_tape (s : State) : s.dequeue.2.tape = s.tape := by
  unfold State.dequeue; split <;> rfl
@[simp] theorem State.dequeue_snd_tapeLen (s : State) : s.dequeue.2.tapeLen = s.tapeLen := by
  unfold State.dequeue; split <;> rfl
@[simp] theorem State.dequeue_snd_dp (s : State) : s.dequeue.2.dp = s.dp := by
  unfold State.dequeue; split <;> rfl
@[simp] theorem State.dequeue_snd_pc (s : State) : s.dequeue.2.pc = s.pc := by
  unfold State.dequeue; split <;> rfl
@[simp] theorem State.dequeue_snd_prog (s : State) : s.dequeue.2.prog = s.prog := by
  unfold State.dequeue; split <;> rfl
@[simp] theorem State.dequeue_snd_progCharBits (s : State) : s.dequeue.2.progCharBits = s.progCharBits := by
  unfold State.dequeue; split <;> rfl
@[simp] theorem State.dequeue_snd_inCharBits (s : State) : s.dequeue.2.inCharBits = s.inCharBits := by
  unfold State.dequeue; split <;> rfl
@[simp] theorem State.dequeue_snd_termChar (s : State) : s.dequeue.2.termChar = s.termChar := by
  unfold State.dequeue; split <;> rfl
@[simp] theorem State.dequeue_snd_iq (s : State) : s.dequeue.2.iq = s.iq.tail := by
  unfold State.dequeue; split <;> simp_all
@[simp] theorem State.dequeue_snd_out (s : State) : s.dequeue.2.out = s.out := by
  unfold State.dequeue; split <;> rfl
@[simp] theorem State.dequeue_snd_status (s : State) : s.dequeue.2.status = s.status := by
  unfold State.dequeue; split <;> rfl
@[simp] theorem State.dequeue_snd_err (s : State) : s.dequeue.2.err = s.err := by
  unfold State.dequeue; split <;> rfl

end Sys2Proof.Machine
end

