-- ==== Sys2Proof/Laws/Ops.lean ====
section
/-! SUPPORT. What each shared operation and each meaning that branches can do, said once. -/

namespace Sys2Proof.Machine

/-! ### The current cell -/

theorem onCurrentCell_of_lt {s : State} (h : s.dp < s.tapeLen) (k : Result) : onCurrentCell s k = k := if_pos h

theorem onCurrentCell_next {s t : State} {k : Result} :
    onCurrentCell s k = .next t ↔ s.dp < s.tapeLen ∧ k = .next t := by
  by_cases h : s.dp < s.tapeLen <;> simp [onCurrentCell, h]

/-- A command that touches the current cell faults exactly when `dp` is off the tape, if it cannot fault itself. -/
theorem onCurrentCell_fault {s : State} {k : Result} {r : Fault} (hk : ∀ r, k ≠ .fault r) :
    onCurrentCell s k = .fault r ↔ s.tapeLen ≤ s.dp ∧ r = .dataPointerOffTape := by
  by_cases h : s.dp < s.tapeLen
  · simp [onCurrentCell, h, hk]
  · rw [onCurrentCell, if_neg h]
    exact ⟨fun e => ⟨Nat.not_lt.1 h, by cases e; rfl⟩, fun e => by rw [e.2]⟩

/-! ### The abort -/

theorem abort_eq (k : ErrKind) (s : State) : abort k s = .next (s.raise k) := rfl

/-! ### The pointer move -/

theorem movePointer_eq_some {delta : Int} {s t : State} :
    movePointer delta s = some t ↔
      0 ≤ s.dp + delta ∧ s.dp + delta < s.tapeLen ∧ t = { s with dp := (s.dp + delta).toNat } := by
  simp only [movePointer]
  split
  · simp; omega
  · simp only [Option.some.injEq, not_or, Int.not_lt, Int.not_le] at *
    constructor
    · rintro rfl; exact ⟨by omega, by omega, rfl⟩
    · rintro ⟨-, -, rfl⟩; rfl

theorem movePointer_eq_none {delta : Int} {s : State} :
    movePointer delta s = none ↔ s.dp + delta < 0 ∨ (s.tapeLen : Int) ≤ s.dp + delta := by
  simp only [movePointer]
  split <;> simp_all

/-- A cursor command moves the pointer inside the tape and advances, or aborts; it never stops. -/
theorem moveCursor_cases (delta : Int) (s : State) :
    (0 ≤ s.dp + delta ∧ s.dp + delta < s.tapeLen ∧
      moveCursor delta s = .next { s with dp := (s.dp + delta).toNat, pc := s.pc + 1 }) ∨
    ((s.dp + delta < 0 ∨ (s.tapeLen : Int) ≤ s.dp + delta) ∧
      moveCursor delta s = .next (s.raise .badMemoryPointer)) := by
  unfold moveCursor
  cases h : movePointer delta s with
  | some t =>
    obtain ⟨h0, h1, rfl⟩ := movePointer_eq_some.1 h
    exact .inl ⟨h0, h1, rfl⟩
  | none => exact .inr ⟨movePointer_eq_none.1 h, rfl⟩

/-! ### The input queue -/

theorem State.dequeue_nil {s : State} (h : s.iq = []) : s.dequeue = (none, s) := by
  unfold State.dequeue; rw [h]

theorem State.dequeue_cons {s : State} {c : Nat} {rest : List Nat} (h : s.iq = c :: rest) :
    s.dequeue = (some c, { s with iq := rest }) := by
  unfold State.dequeue; rw [h]

/-! ### The meanings that branch -/

theorem execInp_nil {s : State} (h : s.iq = []) : execInp s = .next s.advance := by
  simp [execInp, State.dequeue_nil h]

theorem execInp_wide {s : State} {c : Nat} {rest : List Nat} (h : s.iq = c :: rest) (hc : 255 < c) :
    execInp s = .next (State.raise { s with iq := rest } .badInput) := by
  simp [execInp, State.dequeue_cons h, hc, abort]

theorem execInp_byte {s : State} {c : Nat} {rest : List Nat} (h : s.iq = c :: rest) (hc : c ≤ 255) :
    execInp s =
      onCurrentCell s (.next (State.writeCurrent { s with iq := rest } c).advance) := by
  simp [execInp, State.dequeue_cons h, Nat.not_lt.2 hc, onCurrentCell]

/-- What `[` can do when it answers a next state. -/
theorem execLoopStart_next {s t : State} :
    execLoopStart s = .next t ↔
      s.dp < s.tapeLen ∧
        ((s.readCurrent ≠ 0#8 ∧ t = s.advance) ∨
         (s.readCurrent = 0#8 ∧ ∃ m, scanForward s.prog.text s.pc = some m ∧ t = s.jump (m + 1)) ∨
         (s.readCurrent = 0#8 ∧ scanForward s.prog.text s.pc = none ∧ t = s.raise .unmatchedClosingBracket)) := by
  unfold execLoopStart
  rw [onCurrentCell_next]
  refine and_congr_right fun _ => ?_
  by_cases h : s.readCurrent = 0#8
  · have hc : s.cellNonZero = false := by simp [State.cellNonZero, h]
    rw [hc]
    cases hm : scanForward s.prog.text s.pc <;> simp [h, abort, eq_comm]
  · have hc : s.cellNonZero = true := by simp [State.cellNonZero, h]
    rw [hc]
    simpa [h] using eq_comm

/-- What `]` can do: it never stops. -/
theorem execLoopEnd_next {s t : State} :
    execLoopEnd s = .next t ↔
      (∃ m, scanBackward s.prog.text s.pc = some m ∧ t = s.jump m) ∨
      (scanBackward s.prog.text s.pc = none ∧ t = s.raise .unmatchedOpeningBracket) := by
  unfold execLoopEnd
  cases hm : scanBackward s.prog.text s.pc <;> simp [abort, eq_comm]

end Sys2Proof.Machine
end

