-- ==== Sys2Proof/Laws/Exec.lean ====
section
/-! SUPPORT. Everything an instruction can do when it answers a next state, said once, instruction by instruction. -/

namespace Sys2Proof.Machine

/-- The next states of each instruction. -/
def ExecNext (s t : State) : Instr → Prop
  | .halt _ => t = { s with status := .terminated }
  | .ptrInc =>
    (s.dp + 1 < s.tapeLen ∧ t = { s with dp := s.dp + 1, pc := s.pc + 1 }) ∨
    (s.tapeLen ≤ s.dp + 1 ∧ t = s.raise .badMemoryPointer)
  | .ptrDec =>
    (0 < s.dp ∧ s.dp ≤ s.tapeLen ∧ t = { s with dp := s.dp - 1, pc := s.pc + 1 }) ∨
    ((s.dp = 0 ∨ s.tapeLen < s.dp) ∧ t = s.raise .badMemoryPointer)
  | .cellInc =>
    s.dp < s.tapeLen ∧
      t = { s with tape := s.tape.write s.dp (increment (s.tape.read s.dp)), pc := s.pc + 1 }
  | .cellDec =>
    s.dp < s.tapeLen ∧
      t = { s with tape := s.tape.write s.dp (decrement (s.tape.read s.dp)), pc := s.pc + 1 }
  | .out => s.dp < s.tapeLen ∧ t = { s with out := s.out ++ [s.tape.read s.dp], pc := s.pc + 1 }
  | .inp =>
    (s.iq = [] ∧ t = { s with pc := s.pc + 1 }) ∨
    (∃ c rest, s.iq = c :: rest ∧ c ≤ 255 ∧ s.dp < s.tapeLen ∧
      t = { s with tape := s.tape.write s.dp (wrap c), iq := rest, pc := s.pc + 1 }) ∨
    (∃ c rest, s.iq = c :: rest ∧ 255 < c ∧ t = State.raise { s with iq := rest } .badInput)
  | .loopStart =>
    s.dp < s.tapeLen ∧
      ((s.tape.read s.dp ≠ 0#8 ∧ t = { s with pc := s.pc + 1 }) ∨
       (s.tape.read s.dp = 0#8 ∧ ∃ m, scanForward s.prog.text s.pc = some m ∧ t = { s with pc := m + 1 }) ∨
       (s.tape.read s.dp = 0#8 ∧ scanForward s.prog.text s.pc = none ∧ t = s.raise .unmatchedClosingBracket))
  | .loopEnd =>
    (∃ m, scanBackward s.prog.text s.pc = some m ∧ t = { s with pc := m }) ∨
    (scanBackward s.prog.text s.pc = none ∧ t = s.raise .unmatchedOpeningBracket)
  | .comment _ => t = { s with pc := s.pc + 1 }

theorem execPtrInc_next {s t : State} : execPtrInc s = .next t ↔ ExecNext s t .ptrInc := by
  unfold execPtrInc ExecNext
  rcases moveCursor_cases 1 s with ⟨h0, h1, h⟩ | ⟨h0, h⟩ <;> rw [h, Host.Outcome.next.injEq, eq_comm]
  · have hd : ((s.dp : Int) + 1).toNat = s.dp + 1 := by omega
    rw [hd]
    exact ⟨fun e => .inl ⟨by omega, e⟩, fun e => e.elim (·.2) fun e => absurd e.1 (by omega)⟩
  · exact ⟨fun e => .inr ⟨by omega, e⟩, fun e => e.elim (fun e => absurd e.1 (by omega)) (·.2)⟩

theorem execPtrDec_next {s t : State} : execPtrDec s = .next t ↔ ExecNext s t .ptrDec := by
  unfold execPtrDec ExecNext
  rcases moveCursor_cases (-1) s with ⟨h0, h1, h⟩ | ⟨h0, h⟩ <;> rw [h, Host.Outcome.next.injEq, eq_comm]
  · have hd : ((s.dp : Int) + -1).toNat = s.dp - 1 := by omega
    rw [hd]
    exact ⟨fun e => .inl ⟨by omega, by omega, e⟩, fun e => e.elim (·.2.2) fun e => absurd e.1 (by omega)⟩
  · exact ⟨fun e => .inr ⟨by omega, e⟩,
      fun e => e.elim (fun e => absurd (And.intro e.1 e.2.1) (by omega)) (·.2)⟩

theorem execCellInc_next {s t : State} : execCellInc s = .next t ↔ ExecNext s t .cellInc := by
  unfold execCellInc ExecNext
  rw [onCurrentCell_next, State.writeCurrent_byte, Host.Outcome.next.injEq, eq_comm (b := t)]
  rfl

theorem execCellDec_next {s t : State} : execCellDec s = .next t ↔ ExecNext s t .cellDec := by
  unfold execCellDec ExecNext
  rw [onCurrentCell_next, State.writeCurrent_byte, Host.Outcome.next.injEq, eq_comm (b := t)]
  rfl

theorem execOut_next {s t : State} : execOut s = .next t ↔ ExecNext s t .out := by
  unfold execOut ExecNext
  rw [onCurrentCell_next, Host.Outcome.next.injEq, eq_comm (b := t)]
  rfl

theorem execInp_next {s t : State} : execInp s = .next t ↔ ExecNext s t .inp := by
  unfold ExecNext
  cases hq : s.iq with
  | nil =>
    rw [execInp_nil hq]
    simp [State.advance, hq, eq_comm]
  | cons c rest =>
    by_cases hc : 255 < c
    · rw [execInp_wide hq hc, Host.Outcome.next.injEq, eq_comm]
      constructor
      · exact fun e => .inr (.inr ⟨c, rest, rfl, hc, e⟩)
      · rintro (⟨h, -⟩ | ⟨c', r', h, hle, -⟩ | ⟨c', r', h, -, e⟩) <;> cases h
        · omega
        · exact e
    · rw [execInp_byte hq (by omega), onCurrentCell_next, Host.Outcome.next.injEq, eq_comm (b := t)]
      constructor
      · exact fun e => .inr (.inl ⟨c, rest, rfl, by omega, e.1, e.2⟩)
      · rintro (⟨h, -⟩ | ⟨c', r', h, -, hd, e⟩ | ⟨c', r', h, hlt, -⟩) <;> cases h
        · exact ⟨hd, e⟩
        · omega

/-- What an instruction answers next, and nothing else. -/
theorem exec_next {i : Instr} {s t : State} : exec i s = .next t ↔ ExecNext s t i := by
  cases i with
  | halt k => simp [exec, execHalt, ExecNext, eq_comm]
  | ptrInc => exact execPtrInc_next
  | ptrDec => exact execPtrDec_next
  | cellInc => exact execCellInc_next
  | cellDec => exact execCellDec_next
  | out => exact execOut_next
  | inp => exact execInp_next
  | loopStart => exact execLoopStart_next
  | loopEnd => exact execLoopEnd_next
  | comment c => simp [exec, execComment, ExecNext, State.advance, eq_comm]

/-- No instruction is refused. -/
theorem exec_not_refused (i : Instr) (s : State) (r : Refusal) : exec i s ≠ .refused r := by
  cases i <;>
    simp only [exec, execHalt, execPtrInc, execPtrDec, moveCursor, execCellInc, execCellDec, execOut, execInp,
      execLoopStart, execLoopEnd, execComment, onCurrentCell, abort] <;>
    (repeat' split) <;> (intro h; cases h)

end Sys2Proof.Machine
end

