-- ==== Sys2Proof/Laws/PerInstr.lean ====
section
/-! SUPPORT. Statements made per instruction, one lemma per constructor. -/

namespace Sys2Proof.Laws

/-- The tag of an instruction's word is set exactly for a tagged terminator, so no character of the user text can
equal the appended terminator (R81, R84). -/
def TagIsTerminator.Statement (i : Instr) : Prop :=
  (encode i).tag = true ↔ ∃ c, i = .halt (.tagged c)

theorem TagIsTerminator.halt (t : Terminator) : TagIsTerminator.Statement (.halt t) := by
  cases t <;> simp [TagIsTerminator.Statement, encode, charWord]

theorem TagIsTerminator.ptrInc : TagIsTerminator.Statement .ptrInc := by
  simp [TagIsTerminator.Statement, encode, charWord]

theorem TagIsTerminator.ptrDec : TagIsTerminator.Statement .ptrDec := by
  simp [TagIsTerminator.Statement, encode, charWord]

theorem TagIsTerminator.cellInc : TagIsTerminator.Statement .cellInc := by
  simp [TagIsTerminator.Statement, encode, charWord]

theorem TagIsTerminator.cellDec : TagIsTerminator.Statement .cellDec := by
  simp [TagIsTerminator.Statement, encode, charWord]

theorem TagIsTerminator.out : TagIsTerminator.Statement .out := by
  simp [TagIsTerminator.Statement, encode, charWord]

theorem TagIsTerminator.inp : TagIsTerminator.Statement .inp := by
  simp [TagIsTerminator.Statement, encode, charWord]

theorem TagIsTerminator.loopStart : TagIsTerminator.Statement .loopStart := by
  simp [TagIsTerminator.Statement, encode, charWord]

theorem TagIsTerminator.loopEnd : TagIsTerminator.Statement .loopEnd := by
  simp [TagIsTerminator.Statement, encode, charWord]

theorem TagIsTerminator.comment (c : Nat) : TagIsTerminator.Statement (.comment c) := by
  simp [TagIsTerminator.Statement, encode, charWord]

end Sys2Proof.Laws
end

