-- ==== Sys2Proof/Laws/Step.lean ====
section
/-! SUPPORT. What a step can do, said once. -/

namespace Sys2Proof.Machine

theorem step_of_fetch {s : State} {w : PWord} (hr : s.status = .running) (hf : s.fetch = some w) :
    step s = exec (decode s.termChar w) s := by
  simp [step, hr, hf]

theorem step_of_no_fetch {s : State} (hr : s.status = .running) (hf : s.fetch = none) :
    step s = .next (s.raise .badCommandPointer) := by
  simp [step, hr, hf, abort]

theorem step_of_ended {s : State} (hr : s.status ≠ .running) : step s = .next s := by
  unfold step; split <;> simp_all

/-- The three ways a step goes. -/
theorem step_cases (s : State) :
    (s.status ≠ .running ∧ step s = .next s) ∨
    (s.status = .running ∧ s.fetch = none ∧ step s = .next (s.raise .badCommandPointer)) ∨
    (s.status = .running ∧ ∃ w, s.fetch = some w ∧ step s = exec (decode s.termChar w) s) := by
  by_cases hr : s.status = .running
  · cases hf : s.fetch with
    | none => exact .inr (.inl ⟨hr, rfl, step_of_no_fetch hr hf⟩)
    | some w => exact .inr (.inr ⟨hr, w, rfl, step_of_fetch hr hf⟩)
  · exact .inl ⟨hr, step_of_ended hr⟩

/-- A fetch finds a word exactly for `pc` in `[0, N]`. -/
theorem State.fetch_eq_none {s : State} : s.fetch = none ↔ s.prog.len < s.pc := by
  simp only [State.fetch, ProgMem.word?, ProgMem.extended, ProgMem.len, List.getElem?_eq_none_iff,
    List.length_append, List.length_singleton]
  omega

end Sys2Proof.Machine
end

