-- ==== Sys2Proof/Tests/Slice0.lean ====
section
/-! SUPPORT. Tests on fixed values. Expected results are those of spec/95_test_vectors.md (the vector's id is named),
of the examples in the instruction rules, or worked by hand from the rule named. -/

namespace Sys2Proof.Tests

open Sys2Proof.Machine

-- One theorem at a time: with many small theorems at once, Lean starts a thread for each.
set_option Elab.async false

/-! ### Helpers -/

/-- The next state, if there is one. -/
def nextOf : Host.Outcome State Fault Refusal → Option State
  | .next s => some s
  | .fault _ => none
  | .refused _ => none

theorem of_nextOf {o : Host.Outcome State Fault Refusal} {t : State} (h : nextOf o = some t) : o = .next t := by
  cases o <;> simp_all [nextOf]

/-- The program memory loaded with character codes. -/
def load (text : List Nat) : ProgMem :=
  { text := text.map charWord, term := terminatorWord }

/-- The reset state with a text, `pc`, `dp` and cells. -/
def st (text : List Nat) (pc dp : Nat) (tape : Memory) : State :=
  { State.reset with prog := load text, pc := pc, dp := dp, tape := tape }

/-! ### Decoding: the words of R82, bit by bit -/

theorem test_decode_halt : decodeBits none 0b1000000000000000000000#22 = .halt (.tagged 0) := by decide +kernel
theorem test_decode_ptrInc : decodeBits none 0b0000000000000000111110#22 = .ptrInc := by decide +kernel
theorem test_decode_ptrDec : decodeBits none 0b0000000000000000111100#22 = .ptrDec := by decide +kernel
theorem test_decode_cellInc : decodeBits none 0b0000000000000000101011#22 = .cellInc := by decide +kernel
theorem test_decode_cellDec : decodeBits none 0b0000000000000000101101#22 = .cellDec := by decide +kernel
theorem test_decode_out : decodeBits none 0b0000000000000000101110#22 = .out := by decide +kernel
theorem test_decode_inp : decodeBits none 0b0000000000000000101100#22 = .inp := by decide +kernel
theorem test_decode_loopStart : decodeBits none 0b0000000000000001011011#22 = .loopStart := by decide +kernel
theorem test_decode_loopEnd : decodeBits none 0b0000000000000001011101#22 = .loopEnd := by decide +kernel

/-- Q2, Q3: `a`, and U+013E, whose low byte is that of `>`. -/
theorem test_decode_comment :
    decodeBits none 0x000061#22 = .comment 0x61 ∧ decodeBits none 0x00013E#22 = .comment 0x13E := by decide +kernel

/-- Q8, and Q4's sentinel, which is a comment when `TERM_CHAR` is `none` (Q5). -/
theorem test_decode_other_terminators :
    decodeBits none 0x200005#22 = .halt (.tagged 5) ∧ decodeBits (some 0x21) 0x000021#22 = .halt (.sentinel 0x21) ∧
      decodeBits none 0x000021#22 = .comment 0x21 := by decide +kernel

/-- A number of 23 bits is no word; the host's 24-bit row numbers of R82 decode as their rows. -/
theorem test_decodeTableWord :
    decodeTableWord 24 0x400000 = none ∧ decodeTableWord 24 0x00003E = some .ptrInc ∧
      decodeTableWord 24 0x200000 = some (.halt (.tagged 0)) := by decide +kernel

/-- R80 at another width: the tag is bit `PROG_CHAR_BITS`. -/
theorem test_decode_eight_bits :
    decodeBits none 0b100000000#9 = .halt (.tagged 0) ∧ decodeBits none 0b000111110#9 = .ptrInc := by decide +kernel

theorem test_encode_follows_R82 :
    encodeBits 21 .ptrInc = 0x3E#22 ∧ encodeBits 21 .ptrDec = 0x3C#22 ∧
      encodeBits 21 .cellInc = 0x2B#22 ∧ encodeBits 21 .cellDec = 0x2D#22 ∧
      encodeBits 21 .out = 0x2E#22 ∧ encodeBits 21 .inp = 0x2C#22 ∧
      encodeBits 21 .loopStart = 0x5B#22 ∧ encodeBits 21 .loopEnd = 0x5D#22 ∧
      encodeBits 21 (.halt (.tagged 0)) = 0x200000#22 := by decide +kernel

/-! ### WellFormed: an ill-formed term for each check -/

theorem test_wf_refuses_sentinel : Instr.wf 21 none (.halt (.sentinel 0x21)) = false := by decide +kernel

theorem test_wf_refuses_commands_taken_by_termChar :
    Instr.wf 21 (some 0x3E) .ptrInc = false ∧ Instr.wf 21 (some 0x3C) .ptrDec = false ∧
      Instr.wf 21 (some 0x2B) .cellInc = false ∧ Instr.wf 21 (some 0x2D) .cellDec = false ∧
      Instr.wf 21 (some 0x2E) .out = false ∧ Instr.wf 21 (some 0x2C) .inp = false ∧
      Instr.wf 21 (some 0x5B) .loopStart = false ∧ Instr.wf 21 (some 0x5D) .loopEnd = false := by decide +kernel

theorem test_wf_refuses_comments :
    Instr.wf 21 none (.comment 0x2B) = false ∧ Instr.wf 21 (some 0x21) (.comment 0x21) = false := by decide +kernel

/-! ### One instruction each -/

/-- A3 with A8: 255 wraps to 0 and the neighbours stay. -/
theorem test_cellInc_wraps :
    nextOf (exec .cellInc (st [0x2B] 0 5 [(4, 7), (5, 255), (6, 7)])) = some (st [0x2B] 1 5 [(4, 7), (6, 7)]) := by
  decide +kernel

/-- A8: 9 becomes 10. -/
theorem test_cellInc_only_current :
    nextOf (exec .cellInc (st [0x2B] 0 5 [(4, 7), (5, 9), (6, 7)])) =
      some (st [0x2B] 1 5 [(4, 7), (5, 10), (6, 7)]) := by decide +kernel

/-- A5: 0 wraps to 255. -/
theorem test_cellDec_wraps : nextOf (exec .cellDec (st [0x2D] 0 0 [])) = some (st [0x2D] 1 0 [(0, 255)]) := by
  decide +kernel

/-- A6: 128 becomes 127. -/
theorem test_cellDec_unsigned :
    nextOf (exec .cellDec (st [0x2D] 0 0 [(0, 128)])) = some (st [0x2D] 1 0 [(0, 127)]) := by decide +kernel

/-- P2. -/
theorem test_ptrInc_moves : nextOf (exec .ptrInc (st [] 0 29998 [])) = some (st [] 1 29999 []) := by decide +kernel

/-- P3. -/
theorem test_ptrInc_aborts :
    nextOf (exec .ptrInc (st [] 4 29999 [])) =
      some { st [] 4 29999 [] with status := .aborted, err := .badMemoryPointer } := by decide +kernel

/-- P4. -/
theorem test_ptrDec_moves : nextOf (exec .ptrDec (st [] 0 1 [])) = some (st [] 1 0 []) := by decide +kernel

/-- P5. -/
theorem test_ptrDec_aborts :
    nextOf (exec .ptrDec (st [] 2 0 [])) =
      some { st [] 2 0 [] with status := .aborted, err := .badMemoryPointer } := by decide +kernel

/-- IO1, on a stream that already holds a value: the new one comes last. -/
theorem test_out_appends :
    nextOf (exec .out { st [] 0 0 [(0, 0x48)] with out := [1] }) =
      some { st [] 1 0 [(0, 0x48)] with out := [1, 0x48] } := by decide +kernel

/-- IO2: a zero cell emits a value. -/
theorem test_out_zero : nextOf (exec .out (st [] 0 0 [])) = some { st [] 1 0 [] with out := [0] } := by decide +kernel

/-- IO4: the head is taken. -/
theorem test_inp_takes_head :
    nextOf (exec .inp { st [] 0 0 [(0, 7)] with iq := [0x41, 0x42] }) =
      some { st [] 1 0 [(0, 0x41)] with iq := [0x42] } := by decide +kernel

/-- IO8: a code of 0x100 aborts and is gone from the queue. -/
theorem test_inp_aborts :
    nextOf (exec .inp { st [] 3 0 [(0, 7)] with iq := [0x100, 0x41] }) =
      some { st [] 3 0 [(0, 7)] with iq := [0x41], status := .aborted, err := .badInput } := by decide +kernel

/-- S2: `[[]]` on a zero cell skips to 4. -/
theorem test_loopStart_skips_nested :
    nextOf (exec .loopStart (st [0x5B, 0x5B, 0x5D, 0x5D] 0 0 [])) = some (st [0x5B, 0x5B, 0x5D, 0x5D] 4 0 []) := by
  decide +kernel

/-- S3: `[[]` has no match. -/
theorem test_loopStart_aborts :
    nextOf (exec .loopStart (st [0x5B, 0x5B, 0x5D] 0 0 [])) =
      some { st [0x5B, 0x5B, 0x5D] 0 0 [] with status := .aborted, err := .unmatchedClosingBracket } := by
  decide +kernel

/-- S12: `]` of `[-]` goes back to the `[` itself, on a zero cell too. -/
theorem test_loopEnd_jumps :
    nextOf (exec .loopEnd (st [0x5B, 0x2D, 0x5D] 2 0 [])) = some (st [0x5B, 0x2D, 0x5D] 0 0 []) := by decide +kernel

/-- S6's last `]`: depth 1 at index 1, then `[` at index 0 closes it, and there is no match. -/
theorem test_loopEnd_aborts :
    nextOf (exec .loopEnd (st [0x5B, 0x5D, 0x5D] 2 0 [])) =
      some { st [0x5B, 0x5D, 0x5D] 2 0 [] with status := .aborted, err := .unmatchedOpeningBracket } := by
  decide +kernel

/-- Q1. -/
theorem test_halt : nextOf (step (st [0x2B] 1 0 [])) = some { st [0x2B] 1 0 [] with status := .terminated } := by
  decide +kernel

/-- Q3: U+013E is not `>`. -/
theorem test_comment : nextOf (step (st [0x13E] 0 0 [])) = some (st [0x13E] 1 0 []) := by decide +kernel

/-- S14: U+015B between the brackets is passed over. -/
theorem test_scan_passes_over_comment : scanForward (load [0x5B, 0x15B, 0x5D]).text 0 = some 2 := by decide +kernel

/-! ### The step, reset and the host -/

/-- Q7. -/
theorem test_step_outside_text :
    nextOf (step (st [0x2B] 2 0 [])) =
      some { st [0x2B] 2 0 [] with status := .aborted, err := .badCommandPointer } := by decide +kernel

/-- Q6. -/
theorem test_step_after_end :
    nextOf (step { st [0x2B] 0 0 [] with status := .aborted, err := .badInput }) =
      some { st [0x2B] 0 0 [] with status := .aborted, err := .badInput } := by decide +kernel

/-- Q4's second step: the sentinel `!` ends the run where it stands. -/
theorem test_step_sentinel :
    nextOf (step { st [0x2B, 0x21, 0x2B] 1 0 [(0, 1)] with termChar := some 0x21 }) =
      some { st [0x2B, 0x21, 0x2B] 1 0 [(0, 1)] with termChar := some 0x21, status := .terminated } := by decide +kernel

/-- A word placed after reset is what the next step runs; the terminator follows it. -/
theorem test_withFetchWord :
    nextOf (step (State.reset.withFetchWord 24 0x2B)) = some (st [0x2B] 1 0 [(0, 1)]) := by decide +kernel

/-- R250 with no inputs gives `State.reset`. -/
theorem test_construct_reset : nextOf (construct Config.params Config.noInputs) = some State.reset := by decide +kernel

/-- R250 on `,.` with input "A" (E7's start). -/
theorem test_construct_loads :
    nextOf (construct Config.params { text := [0x2C, 0x2E], input := some [0x41], tapeLen := 4 }) =
      some { st [0x2C, 0x2E] 0 0 [] with iq := [0x41], tapeLen := 4 } := by decide +kernel

/-- P9, Q9, and the other grounds of R252. -/
theorem test_construct_refuses :
    construct Config.params { text := [], tapeLen := 0 } = .refused .tapeLenZero ∧
      construct { termChar := some 0x2B } Config.noInputs = .refused .termCharIsCommand ∧
      construct Config.params { text := [0x200000] } = .refused .progCodeTooWide ∧
      construct { inCharBits := 8 } { text := [], input := some [0x100] } = .refused .inputCodeTooWide ∧
      construct { progMax := some 1 } { text := [0x2B, 0x2B] } = .refused .progTooLong :=
  ⟨rfl, rfl, rfl, rfl, rfl⟩

/-- R11, R12: wider characters are accepted; `,` gives one above 255 `BAD_INPUT` whatever its width (R141). -/
theorem test_construct_wide :
    nextOf (construct { progCharBits := 32, inCharBits := 32 }
        { text := [0xFFFFFFFF], input := some [0xFFFFFFFF], tapeLen := 4 }) =
      some { st [0xFFFFFFFF] 0 0 [] with
        progCharBits := 32, inCharBits := 32, iq := [0xFFFFFFFF], tapeLen := 4 } := by decide +kernel

theorem test_inp_aborts_wide :
    nextOf (exec .inp { st [] 3 0 [(0, 7)] with inCharBits := 32, iq := [0xFFFFFFFF] }) =
      some { st [] 3 0 [(0, 7)] with inCharBits := 32, status := .aborted, err := .badInput } := by decide +kernel

/-- E1, E2. -/
theorem test_wrap :
    wrap 256 = 0 ∧ wrap (-1) = 255 ∧ wrap 257 = 1 ∧ wrap (-256) = 0 ∧ wrap (-257) = 255 ∧ wrap 511 = 255 := by
  decide +kernel

/-- R39 to R41. -/
theorem test_hostRead :
    let s := { st [0x2B, 0x2B] 1 3 [] with status := .aborted, err := .badInput }
    [0, 1, 2, 3, 4, 5, 6].map s.hostRead =
      [some 2, some 5, some 1, some 3, some 30000, some 2, none] := by decide +kernel

/-! ### Witnesses: states and operands that meet the statements' hypotheses, clause by clause -/

/-- `[-]` at its `]`, with the cell at the last index of the tape. -/
def wLoop : State := st [0x5B, 0x2D, 0x5D] 2 29999 [(29999, 3)]

/-- An aborted and a terminated state. -/
def wAborted : State := { st [0x3C] 0 0 [] with status := .aborted, err := .badMemoryPointer }
def wEnded : State := { st [] 0 0 [] with status := .terminated }

theorem reset_constructed : construct Config.params Config.noInputs = .next State.reset :=
  of_nextOf test_construct_reset

theorem reset_reachable : Reachable State.reset := .constructed _ _ _ reset_constructed

theorem test_witness_DecodeGivesBackEncodedInstr :
    Instr.wf 21 none (.comment 0x1FFFFF) = true ∧ Instr.wf 21 none (.halt (.tagged 0x1FFFFF)) = true ∧
      Instr.wf 21 (some 0x21) (.halt (.sentinel 0x21)) = true ∧ Instr.wf 21 (some 0x21) .ptrInc = true := by
  decide +kernel

theorem test_witness_DecodeTriesTerminatorThenCommandsThenComment :
    isTerm (some 0x21) (charWord 0x21) = true ∧ isTerm none (charWord 0x61) = false ∧
      (∀ c ∈ commandCodes, isCmd (charWord 0x61) c = false) ∧
      ∀ c ∈ commandCodes, isTerm none (charWord c) = false ∧ isCmd (charWord c) c = true := by decide +kernel

theorem test_witness_CommandMatchComparesAllBits :
    (charWord 0x100).tag = false ∧ (none : Option Nat) ≠ some (charWord 0x100).code ∧ 256 ≤ (charWord 0x100).code := by
  decide +kernel

theorem test_witness_OtherCharactersAreComments :
    (charWord 0x1FFFFF).tag = false ∧ (charWord 0x1FFFFF).code ∉ commandCodes ∧
      some 0x21 ≠ some (charWord 0x1FFFFF).code := by decide +kernel

theorem test_witness_StepRunsDecodedInstr :
    wLoop.status = .running ∧ wLoop.fetch = some (charWord 0x5D) ∧ decode wLoop.termChar (charWord 0x5D) = .loopEnd := by
  decide +kernel

theorem test_witness_StepIsThePseudocode :
    wLoop.status = .running ∧ wLoop.dp < wLoop.tapeLen ∧ nextOf (step wLoop) = some (refStep wLoop) := by decide +kernel

/-- The terminator at the end of a text, with `dp` on the last cell. -/
def wEnd : State := st [0x21] 1 29999 []

/-- The sentinel `!` in the text. -/
def wSentinel : State := { st [0x21] 0 0 [] with termChar := some 0x21 }

theorem wLoop_inv : wLoop.Inv := by decide +kernel
theorem wEnd_inv : wEnd.Inv := by decide +kernel
theorem wSentinel_inv : wSentinel.Inv := by decide +kernel

theorem test_witness_TerminatorEndsTheRun :
    (wEnd.status = .running ∧ wEnd.fetch = some terminatorWord ∧ isTerm wEnd.termChar terminatorWord = true) ∧
      (wLoop.fetch = some (charWord 0x5D) ∧ isTerm wLoop.termChar (charWord 0x5D) = false ∧
        (nextOf (step wLoop)).isSome) ∧
      wEnd.termChar = none ∧ wEnd.pc = wEnd.prog.len ∧ wSentinel.status = .running ∧
      wSentinel.termChar = some 0x21 ∧ wSentinel.prog.text[wSentinel.pc]? = some (charWord 0x21) := by decide +kernel

theorem test_witness_CommentOnlyAdvances :
    ((st [0x61] 0 0 []).status = .running ∧ (st [0x61] 0 0 []).fetch = some (charWord 0x61) ∧
      isTerm (st [0x61] 0 0 []).termChar (charWord 0x61) = false) ∧
      ∀ c ∈ commandCodes, isCmd (charWord 0x61) c = false := by decide +kernel

theorem test_witness_StatusTransitions :
    (wLoop.status = .running ∧ (nextOf (step wLoop)).isSome) ∧
      ((st [] 1 0 []).status = .running ∧ (st [] 1 0 []).fetch = none) ∧
      (wAborted.status ≠ .running ∧ nextOf (step wAborted) = some wAborted) ∧
      nextOf (construct Config.params Config.noInputs) = some State.reset := by decide +kernel

theorem test_witness_EndedRunsDoNotMove :
    wAborted.status ≠ .running ∧ wEnded.status ≠ .running ∧ wAborted.result.isSome ∧
      nextOf (core.run 1 wEnded) = some wEnded := by decide +kernel

theorem test_witness_NextProgramCounter :
    (wLoop.status = .running ∧ wLoop.Inv ∧ step wLoop = .next { wLoop with pc := 0 }) ∧
      ((st [0x3C] 0 0 []).status = .running ∧ step (st [0x3C] 0 0 []) = .next wAborted) :=
  ⟨⟨rfl, wLoop_inv, of_nextOf (by decide +kernel)⟩, rfl, of_nextOf (by decide +kernel)⟩

theorem test_witness_PlacedWordRunsNext :
    decodeRaw State.reset.progCharBits State.reset.termChar (0x3FFFFF % 2 ^ 22) = .ok (.halt (.tagged 0x1FFFFF)) ∧
      State.reset.progCharBits = 21 ∧ State.reset.termChar = none ∧
      decodeTableWord 22 0x3FFFFF = some (.halt (.tagged 0x1FFFFF)) :=
  ⟨rfl, rfl, rfl, rfl⟩

theorem test_witness_WrapIsRemainderMod256 : (255 : Nat) ≤ 255 ∧ (256 : Int) ∣ -1 - (255 : Nat) := by decide +kernel

theorem test_witness_IncrementAndDecrementWrap : (254#8).toNat < 255 ∧ 0 < (1#8).toNat := by decide +kernel

theorem test_witness_CellIncStoresIncrement :
    let s := st [] 0 29999 [(29999, 255)]
    s.TapeOk ∧ s.tape.read s.dp = 255#8 ∧ (0 : Nat) ≠ s.dp := by decide +kernel

theorem test_witness_CellDecStoresDecrement :
    let s := st [] 0 0 [(29999, 1)]
    s.TapeOk ∧ s.tape.read s.dp = 0#8 ∧ (29999 : Nat) ≠ s.dp := by decide +kernel

theorem test_witness_MovePointerIsBoundsChecked :
    ((st [] 0 29999 []).tapeLen : Int) ≤ (st [] 0 29999 []).dp + 1 ∧
      ((st [] 0 0 []).dp : Int) + -1 < 0 ∧
      0 ≤ ((st [] 0 1 []).dp : Int) + -1 ∧ ((st [] 0 29998 []).dp : Int) + 1 < (st [] 0 29998 []).tapeLen ∧
      (st [] 0 29999 []).dp + 1 = (st [] 0 29999 []).tapeLen ∧ (st [] 0 0 []).dp = 0 := by decide +kernel

theorem test_witness_PtrIncMovesRight :
    (st [] 0 29998 []).dp + 1 < (st [] 0 29998 []).tapeLen ∧
      (st [] 0 29999 []).tapeLen ≤ (st [] 0 29999 []).dp + 1 := by decide +kernel

theorem test_witness_PtrDecMovesLeft :
    ((st [] 0 1 []).dp < (st [] 0 1 []).tapeLen ∧ 0 < (st [] 0 1 []).dp) ∧ (st [] 0 0 []).dp = 0 := by decide +kernel

theorem test_witness_OnlyCursorCommandsWriteDp :
    (nextOf (exec .ptrInc (st [] 0 0 []))).map (·.dp) = some 1 ∧
      (nextOf (exec .cellInc (st [] 0 0 []))).map (·.tape.read 0) = some 1 ∧
      (nextOf (exec .out (st [] 0 0 []))).map (·.out) = some [0] ∧
      (nextOf (exec .loopStart (st [0x5B, 0x61, 0x5D] 0 0 []))).map (·.pc) = some 3 := by decide +kernel

theorem test_witness_DataPointerStaysOnTheTape :
    Reachable State.reset ∧ wLoop.dp < wLoop.tapeLen ∧ step wLoop = .next { wLoop with pc := 0 } :=
  ⟨reset_reachable, by decide +kernel, of_nextOf (by decide)⟩

theorem test_witness_OutEmitsCurrentCell : wLoop.dp < wLoop.tapeLen := by decide +kernel

theorem test_witness_InpReadsOneCharacter :
    let s := { st [] 0 29999 [] with iq := [255] }
    State.reset.iq = [] ∧ (s.TapeOk ∧ s.iq = 255 :: [] ∧ 255 ≤ 255) ∧ 255 < 256 := by
  decide +kernel

theorem test_witness_ByteInputNeverAborts :
    let s := { st [] 0 29999 [] with iq := [255, 0] }
    s.TapeOk ∧ ∀ c ∈ s.iq, c < 256 := by decide +kernel

theorem test_witness_InputQueueOnlyLosesItsHead :
    (nextOf (step { st [0x2C] 0 0 [] with iq := [1, 2] })).map (·.iq) = some [2] ∧
      nextOf (construct Config.params Config.noInputs) = some State.reset := by decide +kernel

theorem test_witness_StreamsMoveInOrder :
    (nextOf (core.run 1 { st [0x2C] 0 0 [] with iq := [1, 2] })).map (·.iq) = some [2] := by decide +kernel

theorem test_witness_OnlyOutWritesTheOutput :
    ((st [0x2E] 0 0 []).status = .running ∧ (st [0x2E] 0 0 []).Fetches .out ∧
      (nextOf (step (st [0x2E] 0 0 []))).isSome) ∧
      (¬ (wLoop.status = .running ∧ wLoop.Fetches .out) ∧ (nextOf (step wLoop)).isSome) := by decide +kernel

theorem test_witness_ScanBackwardIsTheLoop : (3 : Nat) ≤ (load [0x5B, 0x2D, 0x5D]).text.length := by decide +kernel

theorem test_witness_ScansAgreeInBothDirections :
    isCmdAt (load [0x5B, 0x5D]).text 0 codeLoopStart = true ∧ isCmdAt (load [0x5B, 0x5D]).text 1 codeLoopEnd = true ∧
      scanForward (load [0x5B, 0x5D]).text 0 = some 1 := by decide +kernel

theorem test_witness_ScansSeeOnlyBracketsOfTheText :
    ((load [0x61]).text.length = (load [0x2B]).text.length ∧
      (∀ k, isCmdAt (load [0x61]).text k codeLoopStart = isCmdAt (load [0x2B]).text k codeLoopStart) ∧
      ∀ k, isCmdAt (load [0x61]).text k codeLoopEnd = isCmdAt (load [0x2B]).text k codeLoopEnd) ∧
      scanForward (load [0x5B, 0x5D]).text 0 = some 1 ∧ scanBackward (load [0x5B, 0x5D]).text 1 = some 0 :=
  ⟨⟨rfl, fun k => by cases k <;> rfl, fun k => by cases k <;> rfl⟩, by decide +kernel, by decide⟩

theorem test_witness_LoopStartEntersOrSkips :
    let skip := st [0x5B, 0x5D] 0 29999 []
    let bad := st [0x5B] 0 29999 []
    (wLoop.dp < wLoop.tapeLen ∧ wLoop.tape.read wLoop.dp ≠ 0#8) ∧
      (skip.dp < skip.tapeLen ∧ skip.tape.read skip.dp = 0#8 ∧ scanForward skip.prog.text skip.pc = some 1) ∧
      (bad.dp < bad.tapeLen ∧ bad.tape.read bad.dp = 0#8 ∧ scanForward bad.prog.text bad.pc = none) ∧
      bad.prog.len ≤ bad.pc + 1 := by decide +kernel

theorem test_witness_LoopEndJumpsBack :
    scanBackward wLoop.prog.text wLoop.pc = some 0 ∧
      scanBackward (st [0x5D] 0 0 []).prog.text (st [0x5D] 0 0 []).pc = none ∧ (st [0x5D] 0 0 []).pc = 0 := by
  decide +kernel

/-- For the five statements `…RaisedExactlyWhen`: each state is `RUNNING` with no error, its `dp` is on the tape, and its
step raises the kind. The clause of `BadCommandPointerRaisedExactlyWhen` on runs has `reset_reachable`. -/
theorem test_witness_KindsRaisedExactlyWhen :
    let a := st [0x5B] 0 0 []
    let b := st [0x5D] 0 0 []
    let c := st [0x3E] 0 29999 []
    let d := st [] 1 0 []
    let e := { st [0x2C] 0 0 [] with iq := [256] }
    (∀ s ∈ [a, b, c, d, e], s.status = .running ∧ s.err = .noError ∧ s.dp < s.tapeLen) ∧
      [a, b, c, d, e].map (fun s => (nextOf (step s)).map (·.err)) =
        [some .unmatchedClosingBracket, some .unmatchedOpeningBracket, some .badMemoryPointer,
         some .badCommandPointer, some .badInput] ∧
      d.prog.len < d.pc := by decide +kernel

theorem test_witness_AbortWritesOnlyStatusAndErr :
    (nextOf (step { st [0x2C] 0 0 [] with iq := [256, 1] })).map (fun t => (t.status, t.iq)) =
      some (.aborted, [1]) := by decide +kernel

theorem test_witness_EachCommandRaisesAtMostOneKind :
    (nextOf (exec .ptrInc (st [] 0 29999 []))).map (·.status) = some .aborted ∧
      (nextOf (exec .inp { st [] 0 0 [] with iq := [256] })).map (·.status) = some .aborted := by decide +kernel

theorem test_witness_NonStoringCommandsFrame :
    [Instr.halt (.tagged 0), .ptrInc, .out, .loopStart, .comment 0x61].all
        (fun i => (nextOf (exec i (st [0x5B] 0 29998 [(29998, 1)]))).isSome) = true ∧
      (nextOf (exec .ptrDec (st [] 0 1 []))).isSome ∧ (nextOf (exec .loopEnd wLoop)).isSome := by decide +kernel

theorem test_witness_StoringCommandsFrame :
    [Instr.cellInc, .cellDec, .inp].all (fun i => (nextOf (exec i { wLoop with iq := [255] })).isSome) = true ∧
      (nextOf (exec .inp wLoop)).isSome ∧ (nextOf (exec .inp { wLoop with iq := [256] })).isSome := by decide +kernel

theorem test_witness_StepSeesOnlyTheCurrentCell :
    let s := st [0x2B] 0 1 [(0, 9), (1, 3)]
    s.tape.wf = true ∧ Memory.wf [(1, 3), (2, 5)] = true ∧ Memory.read [(1, 3), (2, 5)] s.dp = s.tape.read s.dp ∧
      (nextOf (step s)).isSome := by decide +kernel

theorem test_witness_ProgramMemoryIsReadOnly :
    (nextOf (construct Config.params { text := [0x61] })).isSome ∧ ([0x61] : List Nat)[0]? = some 0x61 ∧
      (nextOf (step wLoop)).isSome := by decide +kernel

theorem test_witness_ConfigurationIsFixedForTheRun :
    (nextOf (construct Config.params { text := [0x61], tapeLen := 1 })).isSome ∧
      (nextOf (core.run 1 wLoop)).isSome := by decide +kernel

theorem test_witness_TapeStartsAllZero :
    (nextOf (construct Config.params { text := [], tapeLen := 1 })).map (·.tapeLen) = some 1 ∧
      (nextOf (core.run 1 wLoop)).isSome := by decide +kernel

theorem test_witness_TapesThatReadAlikeAreEqual : Memory.wf [(0, 1), (29999, 255)] = true := by decide +kernel

theorem test_witness_StepKeepsInvariant : wLoop.Inv ∧ step wLoop = .next { wLoop with pc := 0 } :=
  ⟨wLoop_inv, of_nextOf (by decide +kernel)⟩

theorem test_witness_ConstructedStatesHaveInvariant :
    (nextOf (construct { termChar := some 0x21 } { text := [0x2B, 0x21], tapeLen := 1 })).isSome := by decide +kernel

theorem test_witness_RunsNeverStop : wLoop.Inv ∧ wEnd.Inv ∧ wSentinel.Inv := ⟨wLoop_inv, wEnd_inv, wSentinel_inv⟩

theorem test_witness_ProgramCounterStaysInRange :
    Reachable State.reset ∧ wLoop.Inv ∧ wLoop.status = .running ∧ step wLoop = .next { wLoop with pc := 0 } :=
  ⟨reset_reachable, wLoop_inv, rfl, of_nextOf (by decide +kernel)⟩

theorem test_witness_ResetSetsEveryState :
    (nextOf (construct Config.params { text := [0x2C], input := some [0, 255], tapeLen := 1 })).map (·.iq) =
      some [0, 255] := by decide +kernel

theorem test_witness_HostReadsTheRegisters : (6 : Nat) ≤ 6 := by decide +kernel

theorem test_witness_RegistersFitTheirWidths :
    Reachable State.reset ∧ State.reset.prog.len < 2 ^ 0 ∧ State.reset.tapeLen ≤ 2 ^ 15 :=
  ⟨reset_reachable, by decide +kernel, by decide⟩

end Sys2Proof.Tests
end

section
/-! SUPPORT. What one instruction, one step, a run and a reset can change of the state, said once each, and the
statements of 10_state.md that follow from it. -/

namespace Sys2Proof.Machine

/-! ### What an instruction may write -/

/-- The values that a reset fixes for the run: `TAPE_LEN`, the program memory with `PROG_LEN`, and the parameters
(R42, R45, R11 to R13). -/
structure RunConfig where
  tapeLen : Nat
  prog : ProgMem
  progCharBits : Nat
  inCharBits : Nat
  termChar : Option Nat

/-- The configuration that `s` holds. -/
def State.runConfig (s : State) : RunConfig :=
  ⟨s.tapeLen, s.prog, s.progCharBits, s.inCharBits, s.termChar⟩

/-- What `i` may write on its way from `s` to `t`, by field (10_state.md). `pc`, `STATUS` and `ERR`, which many
instructions write, are left to `ExecNext`. -/
structure WritesOnly (i : Instr) (s t : State) : Prop where
  runConfig : t.runConfig = s.runConfig
  dp : t.dp = s.dp ∨ (i = .ptrInc ∧ t.dp = s.dp + 1) ∨ (i = .ptrDec ∧ t.dp + 1 = s.dp)
  tape : t.tape = s.tape ∨ ∃ v, t.tape = s.tape.write s.dp v
  iq : t.iq = s.iq ∨ (i = .inp ∧ ∃ c, s.iq = c :: t.iq)
  out : t.out = s.out ∨ (i = .out ∧ t.out = s.out ++ [s.tape.read s.dp])

/-- A next state that differs from `s` in `pc`, `STATUS` and `ERR` alone. -/
theorem writesOnly_control (i : Instr) (s : State) (pc : Nat) (status : Status) (err : ErrKind) :
    WritesOnly i s { s with pc := pc, status := status, err := err } :=
  ⟨rfl, .inl rfl, .inl rfl, .inl rfl, .inl rfl⟩

theorem exec_writesOnly {i : Instr} {s t : State} (h : exec i s = .next t) : WritesOnly i s t := by
  rw [exec_next] at h
  cases i with
  | halt _ | comment _ =>
    obtain rfl := h
    exact writesOnly_control ..
  | ptrInc =>
    obtain ⟨-, rfl⟩ | ⟨-, rfl⟩ := h
    · exact ⟨rfl, .inr (.inl ⟨rfl, rfl⟩), .inl rfl, .inl rfl, .inl rfl⟩
    · exact writesOnly_control ..
  | ptrDec =>
    obtain ⟨hpos, -, rfl⟩ | ⟨-, rfl⟩ := h
    · exact ⟨rfl, .inr (.inr ⟨rfl, Nat.sub_add_cancel hpos⟩), .inl rfl, .inl rfl, .inl rfl⟩
    · exact writesOnly_control ..
  | cellInc | cellDec =>
    obtain ⟨-, rfl⟩ := h
    exact ⟨rfl, .inl rfl, .inr ⟨_, rfl⟩, .inl rfl, .inl rfl⟩
  | out =>
    obtain ⟨-, rfl⟩ := h
    exact ⟨rfl, .inl rfl, .inl rfl, .inl rfl, .inr ⟨rfl, rfl⟩⟩
  | inp =>
    obtain ⟨-, rfl⟩ | ⟨c, rest, hq, -, -, rfl⟩ | ⟨c, rest, hq, -, rfl⟩ := h
    · exact writesOnly_control ..
    · exact ⟨rfl, .inl rfl, .inr ⟨_, rfl⟩, .inr ⟨rfl, c, hq⟩, .inl rfl⟩
    · exact ⟨rfl, .inl rfl, .inl rfl, .inr ⟨rfl, c, hq⟩, .inl rfl⟩
  | loopStart =>
    obtain ⟨-, ⟨-, rfl⟩ | ⟨-, m, -, rfl⟩ | ⟨-, -, rfl⟩⟩ := h <;> exact writesOnly_control ..
  | loopEnd =>
    obtain ⟨m, -, rfl⟩ | ⟨-, rfl⟩ := h <;> exact writesOnly_control ..

/-- No instruction changes a cell that `dp` does not select (R34). -/
theorem WritesOnly.read_eq {i : Instr} {s t : State} (h : WritesOnly i s t) {a : Nat} (ha : a ≠ s.dp) :
    t.tape.read a = s.tape.read a := by
  obtain htape | ⟨v, htape⟩ := h.tape
  · rw [htape]
  · rw [htape, Memory.read_write_of_ne _ _ ha]

/-- A `[` that does not go on to the next word has found 0 in the current cell. -/
theorem read_eq_zero_of_exec_loopStart {s t : State} (h : exec .loopStart s = .next t) (hpc : t.pc ≠ s.pc + 1) :
    s.tape.read s.dp = 0#8 := by
  obtain ⟨-, ⟨-, rfl⟩ | ⟨hzero, -⟩ | ⟨hzero, -⟩⟩ := exec_next.1 h
  · exact absurd rfl hpc
  · exact hzero
  · exact hzero

/-! ### What a step can do -/

/-- Everything a step that answers a next state can do. -/
theorem step_next {s t : State} :
    step s = .next t ↔
      (s.status ≠ .running ∧ t = s) ∨
      (s.status = .running ∧ s.fetch = none ∧ t = s.raise .badCommandPointer) ∨
      (s.status = .running ∧ ∃ i, s.Fetches i ∧ exec i s = .next t) := by
  obtain ⟨hs, hstep⟩ | ⟨hs, hf, hstep⟩ | ⟨hs, w, hf, hstep⟩ := step_cases s
  · simp [hstep, hs, eq_comm]
  · simp [hstep, hs, hf, State.Fetches, eq_comm]
  · simp [hstep, hs, hf, State.Fetches]

theorem step_runConfig {s t : State} (h : step s = .next t) : t.runConfig = s.runConfig := by
  obtain ⟨-, rfl⟩ | ⟨-, -, rfl⟩ | ⟨-, i, -, hexec⟩ := step_next.1 h
  · rfl
  · rfl
  · exact (exec_writesOnly hexec).runConfig

/-! ### Runs -/

/-- A run of `k + 1` steps is a step and a run of `k`. -/
theorem run_succ {M : Host.Core} {k : Nat} {s t : M.State} :
    M.run (k + 1) s = .next t ↔ ∃ u, M.step s = .next u ∧ M.run k u = .next t := by
  rw [Host.Core.run]
  cases M.step s <;> simp

/-- The induction over a run, once: what every step keeps the same, a run keeps the same. -/
theorem run_eq_of_step_eq {M : Host.Core} {α : Type} {f : M.State → α}
    (hstep : ∀ {s t : M.State}, M.step s = .next t → f t = f s) {k : Nat} {s t : M.State}
    (h : M.run k s = .next t) : f t = f s := by
  induction k generalizing s with
  | zero => rw [Host.Outcome.next.inj h]
  | succ k ih =>
    obtain ⟨u, hsu, hut⟩ := run_succ.1 h
    rw [ih hut, hstep hsu]

theorem run_runConfig {k : Nat} {s t : State} (h : core.run k s = .next t) : t.runConfig = s.runConfig :=
  run_eq_of_step_eq step_runConfig h

/-! ### Reset and the program memory -/

/-- A refusal that was not given leaves what comes after it. -/
theorem eq_next_of_guard {c : Prop} [Decidable c] {r : Refusal} {k : Result} {s : State}
    (h : (if c then .refused r else k) = .next s) : k = .next s := by
  by_cases hc : c
  · rw [if_pos hc] at h
    cases h
  · rwa [if_neg hc] at h

/-- An accepted reset gives the reset state of its inputs (R250): none of the five grounds of R252 has held. -/
theorem eq_resetState_of_construct {p : Params} {h : HostInputs} {s : State} (hs : construct p h = .next s) :
    s = resetState p h.text (h.input.getD []) h.tapeLen := by
  unfold construct at hs
  have hnext := eq_next_of_guard <| eq_next_of_guard <| eq_next_of_guard <| eq_next_of_guard <| eq_next_of_guard hs
  exact (Host.Outcome.next.inj hnext).symm

@[simp] theorem resetState_prog_len (p : Params) (text input : List Nat) (tapeLen : Nat) :
    (resetState p text input tapeLen).prog.len = text.length := by
  simp [resetState, ProgMem.len]

/-- A word of the text is the word at its index. -/
theorem ProgMem.word?_of_text {p : ProgMem} {i : Nat} {w : PWord} (h : p.text[i]? = some w) :
    p.word? i = some w := by
  obtain ⟨hi, -⟩ := List.getElem?_eq_some_iff.1 h
  rw [ProgMem.word?, ProgMem.extended, List.getElem?_append_left hi, h]

/-- The word at index `N` is the terminator (R45). -/
theorem ProgMem.word?_len (p : ProgMem) : p.word? p.len = some p.term := by
  simp [ProgMem.word?, ProgMem.extended, ProgMem.len]

end Sys2Proof.Machine

/-! ### The statements -/

open Sys2Proof Sys2Proof.Machine

/-- Settles O24: each clause is one field of what the instruction may write. -/
theorem onlyCursorCommandsWriteDp : Obligations.OnlyCursorCommandsWriteDp := by
  intro i s t h
  have hw := exec_writesOnly h
  refine ⟨hw.dp.resolve_left, fun a ha => ?_, fun ho => (hw.out.resolve_left ho).2, ?_⟩
  · exact Decidable.of_not_not fun hne => ha (hw.read_eq hne)
  · rintro rfl hpc
    exact read_eq_zero_of_exec_loopStart h hpc

/-- Settles O29: of what a step can do, only a fetched instruction can touch the queue, and of those only `,`. -/
theorem inputQueueOnlyLosesItsHead : Obligations.InputQueueOnlyLosesItsHead := by
  refine ⟨fun s t h => ?_, fun p h s hs => ?_⟩
  · obtain ⟨-, rfl⟩ | ⟨-, -, rfl⟩ | ⟨hrun, i, hfetch, hexec⟩ := step_next.1 h
    · exact .inl rfl
    · exact .inl rfl
    · obtain hsame | ⟨rfl, hhead⟩ := (exec_writesOnly hexec).iq
      · exact .inl hsame
      · exact .inr ⟨hrun, hfetch, hhead⟩
  · rw [eq_resetState_of_construct hs]
    rfl

/-- Settles O48: the reset state's text is the host's, word by word, and a step keeps the configuration. -/
theorem programMemoryIsReadOnly : Obligations.ProgramMemoryIsReadOnly := by
  refine ⟨fun p h s hs => ?_, fun s t h => congrArg RunConfig.prog (step_runConfig h)⟩
  obtain rfl := eq_resetState_of_construct hs
  have hlen := resetState_prog_len p h.text (h.input.getD []) h.tapeLen
  refine ⟨hlen, fun i n hn => ⟨charWord n, ProgMem.word?_of_text ?_, rfl, rfl⟩, terminatorWord, ?_, rfl, rfl⟩
  · simp [resetState, hn]
  · exact hlen ▸ ProgMem.word?_len _

/-- Settles O49, by the configuration that a run keeps. -/
theorem configurationIsFixedForTheRun : Obligations.ConfigurationIsFixedForTheRun := by
  refine ⟨fun p h s hs => ?_, fun k s t h => ?_⟩
  · obtain rfl := eq_resetState_of_construct hs
    exact ⟨rfl, resetState_prog_len ..⟩
  · have hc := run_runConfig h
    exact ⟨congrArg RunConfig.tapeLen hc, congrArg (fun c => c.prog.len) hc⟩

/-- Settles O50: a reset lists no cell, and a run keeps the configuration. -/
theorem tapeStartsAllZero : Obligations.TapeStartsAllZero := by
  refine ⟨fun p h s hs => ?_, fun k s t h => congrArg RunConfig.tapeLen (run_runConfig h)⟩
  obtain rfl := eq_resetState_of_construct hs
  exact ⟨rfl, fun a _ => Memory.read_nil a⟩
end

section
/-! SUPPORT. What the decoder answers in each case of R85, said once, and the statements of 30_encoding.md that follow
from it. -/

namespace Sys2Proof

/-! ### The decoder, case by case (R85) -/

theorem decode_of_isTerm {tc : Option Nat} {w : PWord} (h : isTerm tc w = true) :
    decode tc w = .halt (if w.tag then .tagged w.code else .sentinel w.code) := if_pos h

/-- A word that is no terminator is a character of the user text. -/
theorem tag_of_not_isTerm {tc : Option Nat} {w : PWord} (h : isTerm tc w = false) : w.tag = false :=
  (Bool.or_eq_false_iff.1 h).1

/-- Past the terminators, `TERM_CHAR` plays no part. -/
theorem decode_eq_decode_none {tc : Option Nat} {w : PWord} (h : isTerm tc w = false) :
    decode tc w = decode none w := by
  have hnone : isTerm none w = false := by simp [isTerm, isSentinel, tag_of_not_isTerm h]
  simp only [decode, h, hnone]

/-- A word that matches a code, and is no terminator, decodes as the character of that code. -/
theorem decode_of_isCmd {tc : Option Nat} {w : PWord} {c : Nat} (ht : isTerm tc w = false) (hc : isCmd w c = true) :
    decode tc w = decode none (charWord c) := by
  rw [decode_eq_decode_none ht, isCmd_iff.1 hc]

theorem decode_of_no_command {tc : Option Nat} {w : PWord} (ht : isTerm tc w = false)
    (hc : ∀ c ∈ commandCodes, isCmd w c = false) : decode tc w = .comment w.code := by
  simp only [commandCodes, List.forall_mem_cons] at hc
  simp [decode, ht, hc]

/-- A word matches one code at most (R83). -/
theorem isCmd_unique {w : PWord} {c d : Nat} (hc : isCmd w c = true) (hd : isCmd w d = true) : c = d :=
  congrArg PWord.code ((isCmd_iff.1 hc).symm.trans (isCmd_iff.1 hd))

/-- A character that is neither a command code nor `TERM_CHAR` is a comment (R86). -/
theorem decode_charWord_of_not_mem {tc : Option Nat} {c : Nat} (hc : c ∉ commandCodes) (htc : tc ≠ some c) :
    decode tc (charWord c) = .comment c := by
  have hterm : isTerm tc (charWord c) = false := by simp [htc]
  refine decode_of_no_command hterm fun d hd => ?_
  have hne : c ≠ d := fun h => hc (h ▸ hd)
  simp [hne]

/-- The bits of a program word are always decoded (R86). -/
theorem decodeRaw_toNat {b : Nat} (tc : Option Nat) (w : BitVec (b + 1)) :
    decodeRaw b tc w.toNat = .ok (decodeBits tc w) := by
  rw [decodeRaw, if_pos w.isLt, BitVec.ofNat_toNat, BitVec.setWidth_eq]

end Sys2Proof

/-! ### The statements -/

open Sys2Proof Sys2Proof.Machine

/-- Settles O4: one case of the decoder per clause. -/
theorem decodeTriesTerminatorThenCommandsThenComment :
    Obligations.DecodeTriesTerminatorThenCommandsThenComment := by
  intro tc w
  refine ⟨fun ht => ⟨_, decode_of_isTerm ht⟩, fun ht => ?_, fun _ _ _ _ => isCmd_unique, by decide⟩
  have hcmd {c : Nat} : isCmd w c = true → decode tc w = decode none (charWord c) := decode_of_isCmd ht
  exact ⟨hcmd, hcmd, hcmd, hcmd, hcmd, hcmd, hcmd, hcmd, decode_of_no_command ht⟩

/-- Settles O7: the decoder's range check and its last case, and what `exec` answers for a comment. -/
theorem otherCharactersAreComments : Obligations.OtherCharactersAreComments := by
  refine ⟨fun b tc w => decodeRaw_toNat tc w, fun tc w htag hc htc => ?_, fun c s => exec_next.2 rfl⟩
  rw [eq_charWord_of_tag htag]
  exact decode_charWord_of_not_mem hc htc
end

section
/-! SUPPORT. The values of `wrap`, `increment` and `decrement`, what a store in the current cell changes, and the
statements of 40_cell_alu.md that follow from them. -/

namespace Sys2Proof.Machine

/-! ### Cell arithmetic (R100 to R102) -/

/-- `wrap` is the Euclidean remainder (R100). -/
theorem toNat_wrap (n : Int) : ((wrap n).toNat : Int) = n % 256 := by
  simp only [wrap, BitVec.toNat_ofNat]
  omega

/-- The document's formula over a truncating remainder is the Euclidean remainder: the truncating one is congruent to
`n` and above `-m`. -/
theorem tmod_add_self_tmod {m : Int} (hm : 0 < m) (n : Int) : (n.tmod m + m).tmod m = n % m := by
  have hlow : -m < n.tmod m := Int.lt_tmod_of_pos n hm
  have hcong : n % m = n.tmod m % m :=
    Int.emod_eq_emod_iff_emod_sub_eq_zero.2 (Int.emod_eq_zero_of_dvd Int.dvd_self_sub_tmod)
  rw [Int.tmod_eq_emod_of_nonneg (by omega), Int.add_emod_right, hcong]

theorem toNat_increment (x : Byte) : ((increment x).toNat : Int) = (x.toNat + 1) % 256 := toNat_wrap _

theorem toNat_decrement (x : Byte) : ((decrement x).toNat : Int) = (x.toNat - 1) % 256 := toNat_wrap _

theorem increment_255 : increment 255#8 = 0#8 := by decide

theorem decrement_zero : decrement 0#8 = 255#8 := by decide

/-! ### A store in the current cell -/

/-- The effect of an instruction that stores `v` in the current cell and goes on to the next word (R103, R104). -/
theorem exec_store_effect {i : Instr} {s : State} {v : Byte} (hwf : s.tape.wf = true)
    (h : exec i s = .next { s with tape := s.tape.write s.dp v, pc := s.pc + 1 }) :
    ∃ t, exec i s = .next t ∧ t.tape.read s.dp = v ∧ (∀ a, a ≠ s.dp → t.tape.read a = s.tape.read a) ∧
      t = { s with tape := t.tape, pc := s.pc + 1 } :=
  ⟨_, h, Memory.read_write_same hwf _ _, fun _ ha => Memory.read_write_of_ne _ _ ha, rfl⟩

end Sys2Proof.Machine

/-! ### The statements -/

open Sys2Proof Sys2Proof.Machine

/-- Settles O16: every clause follows from the Euclidean remainder. -/
theorem wrapIsRemainderMod256 : Obligations.WrapIsRemainderMod256 := by
  refine ⟨fun n => ?_, toNat_wrap, fun n r hr hdvd => ?_, by decide, by decide⟩
  · rw [toNat_wrap, tmod_add_self_tmod (by decide)]
  · have hn := toNat_wrap n
    omega

/-- Settles O17, from the two values as remainders. -/
theorem incrementAndDecrementWrap : Obligations.IncrementAndDecrementWrap := by
  refine ⟨fun x => rfl, increment_255, fun x hx => ?_, fun x => rfl, decrement_zero, fun x hx => ?_⟩
  · have hinc := toNat_increment x
    omega
  · have hdec := toNat_decrement x
    omega

/-- Settles O19: `+` is a store of the current cell's increment. -/
theorem cellIncStoresIncrement : Obligations.CellIncStoresIncrement := by
  refine ⟨by decide, fun s ⟨hwf, _, hdp⟩ => ?_⟩
  obtain ⟨t, hexec, hread, hframe, ht⟩ := exec_store_effect hwf (exec_next.2 ⟨hdp, rfl⟩ : exec .cellInc s = _)
  exact ⟨t, hexec, hread, fun hold => by rw [hread, hold, increment_255], hframe, ht⟩

/-- Settles O20: `-` is a store of the current cell's decrement. -/
theorem cellDecStoresDecrement : Obligations.CellDecStoresDecrement := by
  refine ⟨by decide, fun s ⟨hwf, _, hdp⟩ => ?_⟩
  obtain ⟨t, hexec, hread, hframe, ht⟩ := exec_store_effect hwf (exec_next.2 ⟨hdp, rfl⟩ : exec .cellDec s = _)
  exact ⟨t, hexec, hread, fun hold => by rw [hread, hold, decrement_zero], hframe, ht⟩
end

section
/-! SUPPORT. What `>` and `<` answer inside the tape and at its two ends, and the statements of 41_tape_cursor.md that
follow from it. -/

namespace Sys2Proof.Machine

/-- `>` below the last cell moves one cell right and advances (R120). -/
theorem exec_ptrInc_of_lt {s : State} (h : s.dp + 1 < s.tapeLen) :
    exec .ptrInc s = .next { s with dp := s.dp + 1, pc := s.pc + 1 } :=
  exec_next.2 (.inl ⟨h, rfl⟩)

/-- `>` at the last cell aborts and moves nothing (R120, R222). -/
theorem exec_ptrInc_of_le {s : State} (h : s.tapeLen ≤ s.dp + 1) :
    exec .ptrInc s = .next (s.raise .badMemoryPointer) :=
  exec_next.2 (.inr ⟨h, rfl⟩)

/-- `<` above cell 0 moves one cell left and advances (R121). -/
theorem exec_ptrDec_of_pos {s : State} (hdp : s.dp < s.tapeLen) (hpos : 0 < s.dp) :
    exec .ptrDec s = .next { s with dp := s.dp - 1, pc := s.pc + 1 } :=
  exec_next.2 (.inl ⟨hpos, Nat.le_of_lt hdp, rfl⟩)

/-- `<` at cell 0 aborts and moves nothing (R121, R222). -/
theorem exec_ptrDec_of_zero {s : State} (h : s.dp = 0) :
    exec .ptrDec s = .next (s.raise .badMemoryPointer) :=
  exec_next.2 (.inr ⟨.inl h, rfl⟩)

end Sys2Proof.Machine

/-! ### The statements -/

open Sys2Proof Sys2Proof.Machine

/-- Settles O21: when the move fails and what it answers otherwise, and the two commands at the ends of the tape. -/
theorem movePointerIsBoundsChecked : Obligations.MovePointerIsBoundsChecked := by
  refine ⟨fun delta s _ => ⟨movePointer_eq_none.2, fun hlow hhigh => ?_⟩,
    fun s h => exec_ptrInc_of_le (Nat.le_of_eq h.symm), fun s => exec_ptrDec_of_zero⟩
  exact ⟨_, Int.toNat_of_nonneg hlow, movePointer_eq_some.2 ⟨hlow, hhigh, rfl⟩⟩

/-- Settles O22: `>` inside the tape, and at its last cell. -/
theorem ptrIncMovesRight : Obligations.PtrIncMovesRight :=
  ⟨by decide, fun _ => exec_ptrInc_of_lt, fun _ => exec_ptrInc_of_le⟩

/-- Settles O23: `<` above cell 0, and at cell 0. -/
theorem ptrDecMovesLeft : Obligations.PtrDecMovesLeft :=
  ⟨by decide, fun _ => exec_ptrDec_of_pos, fun _ => exec_ptrDec_of_zero⟩
end

section
/-! SUPPORT. What `.` answers on the tape, and the statement of 42_io.md that follows from it. -/

namespace Sys2Proof.Machine

/-- `.` on the tape emits the current cell, whatever its value, and advances (R140). -/
theorem exec_out_of_lt {s : State} (hdp : s.dp < s.tapeLen) :
    exec .out s = .next { s with out := s.out ++ [s.tape.read s.dp], pc := s.pc + 1 } :=
  exec_next.2 ⟨hdp, rfl⟩

end Sys2Proof.Machine

/-! ### The statements -/

open Sys2Proof Sys2Proof.Machine

/-- Settles O26: the word of `.`, and what `.` answers on the tape. -/
theorem outEmitsCurrentCell : Obligations.OutEmitsCurrentCell :=
  ⟨by decide, fun _ => exec_out_of_lt⟩
end

section
/-! SUPPORT. The two scans: that they are the loops of the spec's pseudocode, and where and on which word they stop;
then what `[` and `]` answer, and the statements of 43_bracket_scanner.md that follow. -/

namespace Sys2Proof.Machine

/-! ### The scans are the loops of R162 and R163 -/

/-- The scan of a list of words is the loop over the indices at which `P` holds them. -/
theorem scanForwardFrom_eq_refForwardLoop {P : Nat → PWord} {depth j : Nat} {ws : List PWord}
    (hP : ∀ k w, ws[k]? = some w → P (j + k) = w) :
    scanForwardFrom depth j ws = refForwardLoop P depth j ws.length := by
  induction ws generalizing depth j with
  | nil => rfl
  | cons w ws ih =>
    have hhead : P j = w := hP 0 w rfl
    have htail : ∀ d, scanForwardFrom d (j + 1) ws = refForwardLoop P d (j + 1) ws.length := fun d =>
      ih fun k v hk => by rw [Nat.add_assoc, Nat.add_comm 1 k]; exact hP (k + 1) v hk
    simp only [scanForwardFrom, List.length_cons, refForwardLoop, hhead, htail]

/-- `ScanForward(p)` over any `P` that holds the text (R162). -/
theorem scanForward_eq_refScanForward {P : Nat → PWord} {text : List PWord}
    (hP : ∀ i w, text[i]? = some w → P i = w) (p : Nat) :
    scanForward text p = refScanForward P text.length p := by
  have hdrop : ∀ k w, (text.drop (p + 1))[k]? = some w → P (p + 1 + k) = w := fun k w hk =>
    hP _ _ (List.getElem?_drop ▸ hk)
  rw [scanForward, refScanForward, scanForwardFrom_eq_refForwardLoop hdrop, List.length_drop]

/-- The scan of the words below `p` is the loop from `p - 1` down to 0. -/
theorem scanBackwardFrom_eq_refBackwardLoop {P : Nat → PWord} {text : List PWord}
    (hP : ∀ i w, text[i]? = some w → P i = w) {depth p : Nat} (hp : p ≤ text.length) :
    scanBackwardFrom depth (text.take p).reverse = refBackwardLoop P depth p := by
  induction p generalizing depth with
  | zero => rfl
  | succ p ih =>
    have hhead : P p = text[p] := hP p _ (List.getElem?_eq_getElem hp)
    have hindex : (text.take p).reverse.length = p := by
      rw [List.length_reverse, List.length_take, Nat.min_eq_left (Nat.le_of_lt hp)]
    have htail : ∀ d, scanBackwardFrom d (text.take p).reverse = refBackwardLoop P d p := fun d =>
      ih (Nat.le_of_lt hp)
    simp only [List.take_succ_eq_append_getElem hp, List.reverse_concat, scanBackwardFrom, refBackwardLoop, hhead,
      hindex, htail]

/-- `text.getD` with any default is a `P` that holds the text. -/
theorem getD_of_getElem? {α : Type} {l : List α} {d : α} (i : Nat) (w : α) (h : l[i]? = some w) :
    l.getD i d = w := by
  rw [List.getD_eq_getElem?_getD, h, Option.getD_some]

/-! ### Where a scan stops -/

/-- The forward scan stops at a `]`, whose index it counts from `j` (R162). -/
theorem scanForwardFrom_stops_at_loopEnd {depth j m : Nat} {ws : List PWord}
    (h : scanForwardFrom depth j ws = some m) :
    ∃ k w, m = j + k ∧ ws[k]? = some w ∧ isCmd w codeLoopEnd = true := by
  fun_induction scanForwardFrom depth j ws with
  | case1 => cases h
  | case3 j w ws _ hclose => exact ⟨0, w, (Option.some.inj h).symm, rfl, hclose⟩
  | case2 _ _ _ _ _ ih | case4 _ _ _ _ _ _ _ ih | case5 _ _ _ _ _ _ ih =>
    obtain ⟨k, w, hm, hw, hclose⟩ := ih h
    exact ⟨k + 1, w, by omega, hw, hclose⟩

/-- The backward scan stops at a `[`, whose index is the number of words below it (R163). -/
theorem scanBackwardFrom_stops_at_loopStart {depth m : Nat} {ws : List PWord}
    (h : scanBackwardFrom depth ws = some m) : ∃ w, ws.reverse[m]? = some w ∧ isCmd w codeLoopStart = true := by
  fun_induction scanBackwardFrom depth ws with
  | case1 => cases h
  | case3 w ws _ hopen =>
    obtain rfl := Option.some.inj h
    exact ⟨w, by simp, hopen⟩
  | case2 _ _ _ _ ih | case4 _ _ _ _ _ _ ih | case5 _ _ _ _ _ ih =>
    obtain ⟨w, hw, hopen⟩ := ih h
    have hlt := (List.getElem?_eq_some_iff.1 hw).1
    exact ⟨w, by rw [List.reverse_cons, List.getElem?_append_left hlt, hw], hopen⟩

theorem isCmdAt_of_getElem? {text : List PWord} {i c : Nat} {w : PWord} (hw : text[i]? = some w)
    (hc : isCmd w c = true) : isCmdAt text i c = true := by
  rw [isCmdAt, hw]
  exact hc

/-- What `ScanForward(p)` finds is a `]` of the text, above `p` (R162, R166). -/
theorem scanForward_some {text : List PWord} {p m : Nat} (h : scanForward text p = some m) :
    p < m ∧ m < text.length ∧ isCmdAt text m codeLoopEnd = true := by
  obtain ⟨k, w, rfl, hw, hclose⟩ := scanForwardFrom_stops_at_loopEnd h
  rw [List.getElem?_drop] at hw
  exact ⟨by omega, (List.getElem?_eq_some_iff.1 hw).1, isCmdAt_of_getElem? hw hclose⟩

/-- What `ScanBackward(p)` finds is a `[` of the text, below `p` (R163, R166). -/
theorem scanBackward_some {text : List PWord} {p m : Nat} (h : scanBackward text p = some m) :
    m < p ∧ m < text.length ∧ isCmdAt text m codeLoopStart = true := by
  obtain ⟨w, hw, hopen⟩ := scanBackwardFrom_stops_at_loopStart h
  rw [List.reverse_reverse, List.getElem?_take, Option.ite_none_right_eq_some] at hw
  exact ⟨hw.1, (List.getElem?_eq_some_iff.1 hw.2).1, isCmdAt_of_getElem? hw.2 hopen⟩

/-- At the last word of the text there is nothing to scan forward (R160). -/
theorem scanForward_of_length_le {text : List PWord} {p : Nat} (h : text.length ≤ p + 1) :
    scanForward text p = none := by
  rw [scanForward, List.drop_eq_nil_of_le h, scanForwardFrom]

/-- At index 0 there is nothing to scan backward (R161). -/
theorem scanBackward_zero (text : List PWord) : scanBackward text 0 = none := rfl

/-! ### What `[` and `]` answer -/

/-- `[` on a non-zero cell goes into the loop (R160). -/
theorem exec_loopStart_of_ne_zero {s : State} (hdp : s.dp < s.tapeLen) (hcell : s.tape.read s.dp ≠ 0#8) :
    exec .loopStart s = .next { s with pc := s.pc + 1 } :=
  exec_next.2 ⟨hdp, .inl ⟨hcell, rfl⟩⟩

/-- `[` on a zero cell goes past its match (R160). -/
theorem exec_loopStart_of_match {s : State} {m : Nat} (hdp : s.dp < s.tapeLen) (hcell : s.tape.read s.dp = 0#8)
    (hm : scanForward s.prog.text s.pc = some m) : exec .loopStart s = .next { s with pc := m + 1 } :=
  exec_next.2 ⟨hdp, .inr (.inl ⟨hcell, m, hm, rfl⟩)⟩

/-- `[` on a zero cell without a match aborts (R160, R220). -/
theorem exec_loopStart_of_no_match {s : State} (hdp : s.dp < s.tapeLen) (hcell : s.tape.read s.dp = 0#8)
    (hm : scanForward s.prog.text s.pc = none) : exec .loopStart s = .next (s.raise .unmatchedClosingBracket) :=
  exec_next.2 ⟨hdp, .inr (.inr ⟨hcell, hm, rfl⟩)⟩

/-- `]` goes back to its match, whatever the current cell holds (R161). -/
theorem exec_loopEnd_of_match {s : State} {m : Nat} (hm : scanBackward s.prog.text s.pc = some m) :
    exec .loopEnd s = .next { s with pc := m } :=
  exec_next.2 (.inl ⟨m, hm, rfl⟩)

/-- `]` without a match aborts (R161, R221). -/
theorem exec_loopEnd_of_no_match {s : State} (hm : scanBackward s.prog.text s.pc = none) :
    exec .loopEnd s = .next (s.raise .unmatchedOpeningBracket) :=
  exec_next.2 (.inr ⟨hm, rfl⟩)

end Sys2Proof.Machine

/-! ### The statements -/

open Sys2Proof Sys2Proof.Machine

/-- Settles O32: the scan and the loop take the same branch at every index of the text above `p`. -/
theorem scanForwardIsTheLoop : Obligations.ScanForwardIsTheLoop :=
  fun _ p => scanForward_eq_refScanForward getD_of_getElem? p

/-- Settles O33: the scan and the loop take the same branch at every index below `p`. -/
theorem scanBackwardIsTheLoop : Obligations.ScanBackwardIsTheLoop :=
  fun _ _ hp => scanBackwardFrom_eq_refBackwardLoop getD_of_getElem? hp

/-- Settles O36: the three answers of `[`, and that its match is a word of the text, so that the next index is at most
`N`. -/
theorem loopStartEntersOrSkips : Obligations.LoopStartEntersOrSkips := by
  refine ⟨by decide, fun _ => exec_loopStart_of_ne_zero, fun s m hdp hcell hm => ?_,
    fun _ => exec_loopStart_of_no_match, fun _ => scanForward_of_length_le⟩
  obtain ⟨-, hlt, -⟩ := scanForward_some hm
  exact ⟨exec_loopStart_of_match hdp hcell hm, hlt⟩

/-- Settles O37: the two answers of `]`, and that its match is a `[` of the text. -/
theorem loopEndJumpsBack : Obligations.LoopEndJumpsBack := by
  refine ⟨by decide, fun s m hm => ?_, fun _ => exec_loopEnd_of_no_match, fun s hpc => ?_⟩
  · obtain ⟨-, -, hopen⟩ := scanBackward_some hm
    exact ⟨exec_loopEnd_of_match hm, hopen⟩
  · rw [hpc, scanBackward_zero]
end

section
/-! SUPPORT. The pseudocode of R195 case by case, which fetched words end a run, and the statements of
44_dispatch_sequencer.md that follow. -/

namespace Sys2Proof

/-! ### Terminators among the words (R84) -/

/-- A character of the user text ends the run exactly when it is `TERM_CHAR`. -/
theorem isTerm_iff_of_tag {tc : Option Nat} {w : PWord} (h : w.tag = false) :
    isTerm tc w = true ↔ ∃ c, tc = some c ∧ w = charWord c := by
  rw [eq_charWord_of_tag h, isTerm_charWord, beq_iff_eq]
  simp [charWord]

/-- Only a terminator decodes as one (R85). -/
theorem isTerm_of_decode_eq_halt {tc : Option Nat} {w : PWord} {k : Terminator} (h : decode tc w = .halt k) :
    isTerm tc w = true := by
  refine Decidable.byContradiction fun hterm => ?_
  rw [decode, if_neg hterm] at h
  repeat' split at h
  all_goals cases h

end Sys2Proof

namespace Sys2Proof.Machine

/-! ### The fetched word (R191) -/

/-- `P[i]` is a word of the text, or the terminator at index `N`. -/
theorem ProgMem.word?_eq_some {p : ProgMem} {i : Nat} {w : PWord} :
    p.word? i = some w ↔ p.text[i]? = some w ∨ (i = p.len ∧ p.term = w) := by
  constructor
  · intro h
    rw [ProgMem.word?, ProgMem.extended, List.getElem?_append] at h
    by_cases hi : i < p.text.length
    · rw [if_pos hi] at h
      exact .inl h
    · rw [if_neg hi, List.getElem?_singleton, Option.ite_none_right_eq_some, Option.some.injEq] at h
      exact .inr ⟨Nat.le_antisymm (Nat.sub_eq_zero_iff_le.1 h.1) (Nat.le_of_not_lt hi), h.2⟩
  · rintro (h | ⟨rfl, rfl⟩)
    · exact ProgMem.word?_of_text h
    · exact p.word?_len

/-- A fetch finds a terminator at `N`, and in the text where the text holds `TERM_CHAR` (R192). -/
theorem fetches_terminator_iff {s : State} (h : s.ProgOk) :
    (∃ w, s.fetch = some w ∧ isTerm s.termChar w = true) ↔
      s.pc = s.prog.len ∨ ∃ c, s.termChar = some c ∧ s.prog.text[s.pc]? = some (charWord c) := by
  obtain ⟨htext, hlast, -, -⟩ := h
  constructor
  · rintro ⟨w, hf, hterm⟩
    obtain hw | ⟨hpc, -⟩ := ProgMem.word?_eq_some.1 hf
    · obtain ⟨htag, -⟩ := htext w (List.mem_of_getElem? hw)
      obtain ⟨c, htc, rfl⟩ := (isTerm_iff_of_tag htag).1 hterm
      exact .inr ⟨c, htc, hw⟩
    · exact .inl hpc
  · rintro (hpc | ⟨c, htc, hw⟩)
    · exact ⟨terminatorWord, ProgMem.word?_eq_some.2 (.inr ⟨hpc, hlast⟩), rfl⟩
    · exact ⟨charWord c, ProgMem.word?_of_text hw, (isTerm_iff_of_tag rfl).2 ⟨c, htc, rfl⟩⟩

/-! ### The three outcomes of a fetch (R191 to R193) -/

/-- The terminator ends the run; every other instruction leaves `STATUS` alone or aborts (R190). -/
theorem exec_status {i : Instr} {s t : State} (h : exec i s = .next t) :
    (∃ k, i = .halt k ∧ t.status = .terminated) ∨ t.status = s.status ∨ t.status = .aborted := by
  rw [exec_next] at h
  cases i with
  | halt k =>
    obtain rfl := h
    exact .inl ⟨k, rfl, rfl⟩
  | comment _ =>
    obtain rfl := h
    exact .inr (.inl rfl)
  | cellInc | cellDec | out =>
    obtain ⟨-, rfl⟩ := h
    exact .inr (.inl rfl)
  | ptrInc =>
    obtain ⟨-, rfl⟩ | ⟨-, rfl⟩ := h
    · exact .inr (.inl rfl)
    · exact .inr (.inr rfl)
  | ptrDec =>
    obtain ⟨-, -, rfl⟩ | ⟨-, rfl⟩ := h
    · exact .inr (.inl rfl)
    · exact .inr (.inr rfl)
  | inp =>
    obtain ⟨-, rfl⟩ | ⟨c, rest, -, -, -, rfl⟩ | ⟨c, rest, -, -, rfl⟩ := h
    · exact .inr (.inl rfl)
    · exact .inr (.inl rfl)
    · exact .inr (.inr rfl)
  | loopStart =>
    obtain ⟨-, ⟨-, rfl⟩ | ⟨-, m, -, rfl⟩ | ⟨-, -, rfl⟩⟩ := h
    · exact .inr (.inl rfl)
    · exact .inr (.inl rfl)
    · exact .inr (.inr rfl)
  | loopEnd =>
    obtain ⟨m, -, rfl⟩ | ⟨-, rfl⟩ := h
    · exact .inr (.inl rfl)
    · exact .inr (.inr rfl)

/-- A fetched terminator writes `STATUS` and nothing else (R192). -/
theorem step_of_isTerm {s : State} {w : PWord} (hrun : s.status = .running) (hf : s.fetch = some w)
    (hterm : isTerm s.termChar w = true) : step s = .next { s with status := .terminated } := by
  rw [step_of_fetch hrun hf, decode_of_isTerm hterm]
  exact exec_next.2 rfl

/-- A fetched comment writes `pc` and nothing else (R193). -/
theorem step_of_no_command {s : State} {w : PWord} (hrun : s.status = .running) (hf : s.fetch = some w)
    (hterm : isTerm s.termChar w = false) (hcmd : ∀ c ∈ commandCodes, isCmd w c = false) :
    step s = .next { s with pc := s.pc + 1 } := by
  rw [step_of_fetch hrun hf, decode_of_no_command hterm hcmd]
  exact exec_next.2 rfl

/-- A step from `RUNNING` reaches `TERMINATED` by a fetched terminator only (R190). -/
theorem fetches_terminator_of_step {s t : State} (hrun : s.status = .running) (h : step s = .next t)
    (ht : t.status = .terminated) : ∃ w, s.fetch = some w ∧ isTerm s.termChar w = true := by
  obtain ⟨hended, -⟩ | ⟨-, -, rfl⟩ | ⟨-, i, hfetch, hexec⟩ := step_next.1 h
  · exact absurd hrun hended
  · cases ht
  · obtain ⟨w, hf, hdec⟩ := Option.map_eq_some_iff.1 hfetch
    obtain ⟨k, rfl, -⟩ | hsame | habort := exec_status hexec
    · exact ⟨w, hf, isTerm_of_decode_eq_halt hdec⟩
    · cases ht.symm.trans (hsame.trans hrun)
    · cases ht.symm.trans habort

/-- Where a step from `RUNNING` ends the run, for a program memory as loading leaves it (R192). -/
theorem step_terminates_iff {s : State} (hrun : s.status = .running) (hprog : s.ProgOk) :
    step s = .next { s with status := .terminated } ↔
      s.pc = s.prog.len ∨ ∃ c, s.termChar = some c ∧ s.prog.text[s.pc]? = some (charWord c) := by
  rw [← fetches_terminator_iff hprog]
  exact ⟨fun h => fetches_terminator_of_step hrun h rfl, fun ⟨_, hf, hterm⟩ => step_of_isTerm hrun hf hterm⟩

/-! ### The pseudocode of a step (R195) -/

theorem refP_of_word? {s : State} {i : Nat} {w : PWord} (h : s.prog.word? i = some w) : refP s i = w :=
  getD_of_getElem? i w h

/-- The scans of the pseudocode are the machine's, over the text it holds. -/
theorem refScanForward_refP (s : State) :
    refScanForward (refP s) s.prog.text.length s.pc = scanForward s.prog.text s.pc :=
  (scanForward_eq_refScanForward (fun _ _ hw => refP_of_word? (ProgMem.word?_of_text hw)) _).symm

theorem refScanBackward_refP {s : State} (hpc : s.pc ≤ s.prog.len) :
    refScanBackward (refP s) s.pc = scanBackward s.prog.text s.pc :=
  (scanBackwardFrom_eq_refBackwardLoop (fun _ _ hw => refP_of_word? (ProgMem.word?_of_text hw)) hpc).symm

/-- One branch of the decoder against the same branch of the pseudocode. -/
theorem exec_ite_eq_next_ite {c : Prop} [Decidable c] {i j : Instr} {s t u : State}
    (hthen : exec i s = .next t) (helse : exec j s = .next u) :
    exec (if c then i else j) s = .next (if c then t else u) := by
  by_cases h : c
  · rwa [if_pos h, if_pos h]
  · rwa [if_neg h, if_neg h]

/-- A fetched word takes the same branch in the decoder and in the pseudocode, and there the instruction writes what
the pseudocode writes. -/
theorem exec_decode_eq_refStep {s : State} {w : PWord} (hdp : s.dp < s.tapeLen) (hf : s.fetch = some w) :
    exec (decode s.termChar w) s = .next (refStep s) := by
  have hpc : ¬ s.pc > s.prog.text.length := fun h => by
    rw [State.fetch_eq_none.2 h] at hf
    cases hf
  rw [refStep, if_neg hpc, refP_of_word? hf, refScanForward_refP, refScanBackward_refP (Nat.le_of_not_lt hpc)]
  refine exec_ite_eq_next_ite ?halt <| exec_ite_eq_next_ite ?ptrInc <| exec_ite_eq_next_ite ?ptrDec <|
    exec_ite_eq_next_ite ?cellInc <| exec_ite_eq_next_ite ?cellDec <| exec_ite_eq_next_ite ?out <|
    exec_ite_eq_next_ite ?inp <| exec_ite_eq_next_ite ?loopStart <| exec_ite_eq_next_ite ?loopEnd ?comment
  case halt => exact exec_next.2 rfl
  case ptrInc =>
    split
    next hlast => exact exec_ptrInc_of_le hlast
    next hlast => exact exec_ptrInc_of_lt (Nat.lt_of_not_le hlast)
  case ptrDec =>
    split
    next hzero => exact exec_ptrDec_of_zero hzero
    next hzero => exact exec_ptrDec_of_pos hdp (Nat.pos_of_ne_zero hzero)
  case cellInc => exact exec_next.2 ⟨hdp, rfl⟩
  case cellDec => exact exec_next.2 ⟨hdp, rfl⟩
  case out => exact exec_out_of_lt hdp
  case inp =>
    split
    next hq => exact exec_next.2 (.inl ⟨hq, rfl⟩)
    next x rest hq =>
      split
      next hwide => exact exec_next.2 (.inr (.inr ⟨x, rest, hq, hwide, rfl⟩))
      next hwide => exact exec_next.2 (.inr (.inl ⟨x, rest, hq, Nat.le_of_not_lt hwide, hdp, rfl⟩))
  case loopStart =>
    split
    next hcell => exact exec_loopStart_of_ne_zero hdp hcell
    next hcell =>
      cases hm : scanForward s.prog.text s.pc with
      | none => exact exec_loopStart_of_no_match hdp (Decidable.not_not.1 hcell) hm
      | some m => exact exec_loopStart_of_match hdp (Decidable.not_not.1 hcell) hm
  case loopEnd =>
    cases hm : scanBackward s.prog.text s.pc with
    | none => exact exec_loopEnd_of_no_match hm
    | some m => exact exec_loopEnd_of_match hm
  case comment => exact exec_next.2 rfl

end Sys2Proof.Machine

/-! ### The statements -/

open Sys2Proof Sys2Proof.Machine

/-- Settles O9: where the fetch fails both abort, and elsewhere the pseudocode tries the words in the decoder's
order. -/
theorem stepIsThePseudocode : Obligations.StepIsThePseudocode := by
  intro s hrun hdp
  cases hf : s.fetch with
  | none =>
    have hpc : s.pc > s.prog.text.length := State.fetch_eq_none.1 hf
    rw [step_of_no_fetch hrun hf, refStep, if_pos hpc]
    rfl
  | some w =>
    rw [step_of_fetch hrun hf]
    exact exec_decode_eq_refStep hdp hf

/-- Settles O10: a step ends the run exactly when it fetches a terminator, and where that is follows from how the
program memory was loaded. -/
theorem terminatorEndsTheRun : Obligations.TerminatorEndsTheRun := by
  refine ⟨fun k s => exec_next.2 rfl, fun s w => step_of_isTerm, fun s w t hrun hf hterm hstep ht => ?_,
    fun s ⟨_, hprog, _⟩ hrun htc => ?_, fun s c ⟨_, hprog, _⟩ hrun htc => ?_⟩
  · obtain ⟨w', hf', hterm'⟩ := fetches_terminator_of_step hrun hstep ht
    obtain rfl := Option.some.inj (hf.symm.trans hf')
    cases hterm.symm.trans hterm'
  · simpa [htc] using step_terminates_iff hrun hprog
  · simpa [htc] using step_terminates_iff hrun hprog

/-- Settles O11: such a word decodes as a comment. -/
theorem commentOnlyAdvances : Obligations.CommentOnlyAdvances :=
  fun _ _ => step_of_no_command
end

section
/-! SUPPORT. What raises each error kind, said once; that the program counter of a run stays in `[0, N]`; and the
statements of 60_exceptions.md that follow. -/

namespace Sys2Proof.Machine

/-! ### What raises each kind (R220 to R225) -/

/-- The condition on which a step of the `RUNNING` state `s` raises the kind. -/
def State.Raises (s : State) : ErrKind → Prop
  | .noError => False
  | .unmatchedClosingBracket =>
    s.Fetches .loopStart ∧ s.dp < s.tapeLen ∧ s.tape.read s.dp = 0#8 ∧ scanForward s.prog.text s.pc = none
  | .unmatchedOpeningBracket => s.Fetches .loopEnd ∧ scanBackward s.prog.text s.pc = none
  | .badMemoryPointer =>
    (s.Fetches .ptrInc ∧ s.tapeLen ≤ s.dp + 1) ∨ (s.Fetches .ptrDec ∧ (s.dp = 0 ∨ s.tapeLen < s.dp))
  | .badCommandPointer => s.prog.len < s.pc
  | .badInput => s.Fetches .inp ∧ ∃ c rest, s.iq = c :: rest ∧ 255 < c

/-- `t` is `s` aborted with `k`: nothing but `STATUS`, `ERR` and, for a failing `,`, the queue differs (R224, R225). -/
def AbortsTo (s : State) (k : ErrKind) (t : State) : Prop :=
  ∃ iq, t = State.raise { s with iq := iq } k

theorem abortsTo_raise (s : State) (k : ErrKind) : AbortsTo s k (s.raise k) := ⟨s.iq, rfl⟩

/-- A fetched instruction leaves `ERR` alone and does not abort, or it aborts with a kind whose condition holds. -/
theorem exec_keepsErr_or_aborts {i : Instr} {s t : State} (hf : s.Fetches i) (h : exec i s = .next t) :
    (t.err = s.err ∧ (t.status = .aborted → s.status = .aborted)) ∨ ∃ k, s.Raises k ∧ AbortsTo s k t := by
  rw [exec_next] at h
  cases i with
  | halt _ =>
    obtain rfl := h
    exact .inl ⟨rfl, nofun⟩
  | comment _ =>
    obtain rfl := h
    exact .inl ⟨rfl, id⟩
  | cellInc | cellDec | out =>
    obtain ⟨-, rfl⟩ := h
    exact .inl ⟨rfl, id⟩
  | ptrInc =>
    obtain ⟨-, rfl⟩ | ⟨hlast, rfl⟩ := h
    · exact .inl ⟨rfl, id⟩
    · exact .inr ⟨.badMemoryPointer, .inl ⟨hf, hlast⟩, abortsTo_raise ..⟩
  | ptrDec =>
    obtain ⟨-, -, rfl⟩ | ⟨hfirst, rfl⟩ := h
    · exact .inl ⟨rfl, id⟩
    · exact .inr ⟨.badMemoryPointer, .inr ⟨hf, hfirst⟩, abortsTo_raise ..⟩
  | inp =>
    obtain ⟨-, rfl⟩ | ⟨c, rest, -, -, -, rfl⟩ | ⟨c, rest, hq, hwide, rfl⟩ := h
    · exact .inl ⟨rfl, id⟩
    · exact .inl ⟨rfl, id⟩
    · exact .inr ⟨.badInput, ⟨hf, c, rest, hq, hwide⟩, rest, rfl⟩
  | loopStart =>
    obtain ⟨hdp, ⟨-, rfl⟩ | ⟨-, m, -, rfl⟩ | ⟨hzero, hm, rfl⟩⟩ := h
    · exact .inl ⟨rfl, id⟩
    · exact .inl ⟨rfl, id⟩
    · exact .inr ⟨.unmatchedClosingBracket, ⟨hf, hdp, hzero, hm⟩, abortsTo_raise ..⟩
  | loopEnd =>
    obtain ⟨m, -, rfl⟩ | ⟨hm, rfl⟩ := h
    · exact .inl ⟨rfl, id⟩
    · exact .inr ⟨.unmatchedOpeningBracket, ⟨hf, hm⟩, abortsTo_raise ..⟩

/-- A step from `RUNNING` leaves `ERR` alone and does not abort, or it aborts with a kind whose condition holds. -/
theorem step_keepsErr_or_aborts {s t : State} (hrun : s.status = .running) (h : step s = .next t) :
    (t.err = s.err ∧ t.status ≠ .aborted) ∨ ∃ k, s.Raises k ∧ AbortsTo s k t := by
  obtain ⟨hended, -⟩ | ⟨-, hf, rfl⟩ | ⟨-, i, hf, hexec⟩ := step_next.1 h
  · exact absurd hrun hended
  · exact .inr ⟨.badCommandPointer, State.fetch_eq_none.1 hf, abortsTo_raise ..⟩
  · refine (exec_keepsErr_or_aborts hf hexec).imp_left fun ⟨herr, hab⟩ => ⟨herr, fun ht => ?_⟩
    cases hrun.symm.trans (hab ht)

/-- A step that fetches an instruction runs it. -/
theorem step_of_fetches {s : State} {i : Instr} (hrun : s.status = .running) (hf : s.Fetches i) :
    step s = exec i s := by
  obtain ⟨w, hw, rfl⟩ := Option.map_eq_some_iff.1 hf
  exact step_of_fetch hrun hw

/-- Where the condition of a kind holds, the step aborts with that kind. -/
theorem step_of_raises {s : State} {k : ErrKind} (hrun : s.status = .running) (hk : s.Raises k) :
    ∃ t, step s = .next t ∧ AbortsTo s k t := by
  cases k with
  | noError => exact hk.elim
  | unmatchedClosingBracket =>
    obtain ⟨hf, hdp, hzero, hm⟩ := hk
    exact ⟨_, (step_of_fetches hrun hf).trans (exec_loopStart_of_no_match hdp hzero hm), abortsTo_raise ..⟩
  | unmatchedOpeningBracket =>
    obtain ⟨hf, hm⟩ := hk
    exact ⟨_, (step_of_fetches hrun hf).trans (exec_loopEnd_of_no_match hm), abortsTo_raise ..⟩
  | badMemoryPointer =>
    obtain ⟨hf, hlast⟩ | ⟨hf, hfirst⟩ := hk
    · exact ⟨_, (step_of_fetches hrun hf).trans (exec_ptrInc_of_le hlast), abortsTo_raise ..⟩
    · exact ⟨_, (step_of_fetches hrun hf).trans (exec_next.2 (.inr ⟨hfirst, rfl⟩)), abortsTo_raise ..⟩
  | badCommandPointer => exact ⟨_, step_of_no_fetch hrun (State.fetch_eq_none.2 hk), abortsTo_raise ..⟩
  | badInput =>
    obtain ⟨hf, c, rest, hq, hwide⟩ := hk
    exact ⟨_, (step_of_fetches hrun hf).trans (execInp_wide hq hwide), rest, rfl⟩

/-- A step from `RUNNING` aborts with a kind exactly on the kind's condition. -/
theorem step_aborts_iff_raises {s t : State} {k : ErrKind} (hrun : s.status = .running) (h : step s = .next t) :
    (t.status = .aborted ∧ t.err = k) ↔ s.Raises k := by
  constructor
  · rintro ⟨hab, ht⟩
    obtain ⟨-, hnot⟩ | ⟨k', hraises, iq, rfl⟩ := step_keepsErr_or_aborts hrun h
    · exact absurd hab hnot
    · obtain rfl : k' = k := ht
      exact hraises
  · intro hraises
    obtain ⟨u, hu, iq, rfl⟩ := step_of_raises hrun hraises
    obtain rfl := Host.Outcome.next.inj (h.symm.trans hu)
    exact ⟨rfl, rfl⟩

/-- An error that a step from `RUNNING` leaves is an abort, with both pointers where they were (R220 to R222). -/
theorem aborted_of_step_err {s t : State} {k : ErrKind} (hrun : s.status = .running) (herr : s.err = .noError)
    (h : step s = .next t) (ht : t.err = k) (hk : k ≠ .noError) :
    t.status = .aborted ∧ t.dp = s.dp ∧ t.pc = s.pc := by
  obtain ⟨hsame, -⟩ | ⟨_, -, iq, rfl⟩ := step_keepsErr_or_aborts hrun h
  · exact absurd (ht.symm.trans (hsame.trans herr)) hk
  · exact ⟨rfl, rfl, rfl⟩

/-- On the tape, the pointer can leave it only from its last cell by `>` and from cell 0 by `<` (R222). -/
theorem raises_badMemoryPointer_iff {s : State} (hdp : s.dp < s.tapeLen) :
    s.Raises .badMemoryPointer ↔ (s.Fetches .ptrInc ∧ s.dp + 1 = s.tapeLen) ∨ (s.Fetches .ptrDec ∧ s.dp = 0) := by
  have hlast : s.tapeLen ≤ s.dp + 1 ↔ s.dp + 1 = s.tapeLen := by omega
  have hfirst : (s.dp = 0 ∨ s.tapeLen < s.dp) ↔ s.dp = 0 := by omega
  rw [State.Raises, hlast, hfirst]

/-! ### The program counter of a run (R196, R223) -/

/-- Where the program memory ends in a terminator, any other instruction is fetched from the text. -/
theorem pc_lt_of_fetches {s : State} {i : Instr} (hterm : s.prog.term = terminatorWord) (hf : s.Fetches i)
    (hi : ∀ k, i ≠ .halt k) : s.pc < s.prog.len := by
  obtain ⟨w, hw, rfl⟩ := Option.map_eq_some_iff.1 hf
  obtain htext | ⟨-, rfl⟩ := ProgMem.word?_eq_some.1 hw
  · exact (List.getElem?_eq_some_iff.1 htext).1
  · exact absurd (decode_of_isTerm (by rw [hterm]; rfl)) (hi _)

/-- No instruction of the text takes `pc` above `N`, and a terminator leaves it (R36, R196). -/
theorem exec_pc_le {i : Instr} {s t : State} (h : exec i s = .next t) (hpc : s.pc ≤ s.prog.len)
    (hlt : (∀ k, i ≠ .halt k) → s.pc < s.prog.len) : t.pc ≤ s.prog.len := by
  rw [exec_next] at h
  cases i with
  | halt _ =>
    obtain rfl := h
    exact hpc
  | comment _ =>
    obtain rfl := h
    exact hlt nofun
  | cellInc | cellDec | out =>
    obtain ⟨-, rfl⟩ := h
    exact hlt nofun
  | ptrInc =>
    obtain ⟨-, rfl⟩ | ⟨-, rfl⟩ := h
    · exact hlt nofun
    · exact hpc
  | ptrDec =>
    obtain ⟨-, -, rfl⟩ | ⟨-, rfl⟩ := h
    · exact hlt nofun
    · exact hpc
  | inp =>
    obtain ⟨-, rfl⟩ | ⟨c, rest, -, -, -, rfl⟩ | ⟨c, rest, -, -, rfl⟩ := h
    · exact hlt nofun
    · exact hlt nofun
    · exact hpc
  | loopStart =>
    obtain ⟨-, ⟨-, rfl⟩ | ⟨-, m, hm, rfl⟩ | ⟨-, -, rfl⟩⟩ := h
    · exact hlt nofun
    · exact (scanForward_some hm).2.1
    · exact hpc
  | loopEnd =>
    obtain ⟨m, hm, rfl⟩ | ⟨-, rfl⟩ := h
    · exact Nat.le_of_lt (scanBackward_some hm).2.1
    · exact hpc

theorem step_pc_le {s t : State} (hterm : s.prog.term = terminatorWord) (hpc : s.pc ≤ s.prog.len)
    (h : step s = .next t) : t.pc ≤ s.prog.len := by
  obtain ⟨-, rfl⟩ | ⟨-, -, rfl⟩ | ⟨-, i, hf, hexec⟩ := step_next.1 h
  · exact hpc
  · exact hpc
  · exact exec_pc_le hexec hpc (pc_lt_of_fetches hterm hf)

theorem step_prog {s t : State} (h : step s = .next t) : t.prog = s.prog :=
  congrArg RunConfig.prog (step_runConfig h)

/-- A fetch inside `[0, N]` does not fail, so a step from there does not raise `BAD_COMMAND_POINTER` (R223). -/
theorem step_err_ne_badCommandPointer {s t : State} (hpc : s.pc ≤ s.prog.len) (herr : s.err ≠ .badCommandPointer)
    (h : step s = .next t) : t.err ≠ .badCommandPointer := by
  by_cases hrun : s.status = .running
  · obtain ⟨hsame, -⟩ | ⟨k, hraises, iq, rfl⟩ := step_keepsErr_or_aborts hrun h
    · rwa [hsame]
    · rintro (rfl : k = .badCommandPointer)
      exact absurd hraises (Nat.not_lt.2 hpc)
  · obtain rfl := Host.Outcome.next.inj ((step_of_ended hrun).symm.trans h)
    exact herr

/-- What keeps every fetch of a run inside `[0, N]`: the terminator at `N`, and `pc` not above it. -/
theorem reachable_pc_le {s : State} (h : Reachable s) : s.prog.term = terminatorWord ∧ s.pc ≤ s.prog.len := by
  induction h with
  | constructed p h s hs =>
    obtain rfl := eq_resetState_of_construct hs
    exact ⟨rfl, Nat.zero_le _⟩
  | stepped s t _ hstep ih =>
    obtain ⟨hterm, hpc⟩ := ih
    rw [step_prog hstep]
    exact ⟨hterm, step_pc_le hterm hpc hstep⟩

theorem reachable_err_ne_badCommandPointer {s : State} (h : Reachable s) : s.err ≠ .badCommandPointer := by
  induction h with
  | constructed p h s hs =>
    obtain rfl := eq_resetState_of_construct hs
    exact nofun
  | stepped s t hs hstep ih => exact step_err_ne_badCommandPointer (reachable_pc_le hs).2 ih hstep

end Sys2Proof.Machine

/-! ### The statements -/

open Sys2Proof Sys2Proof.Machine

/-- Settles O38: the condition of the kind, whose clause on `dp` the premise gives. -/
theorem unmatchedClosingBracketRaisedExactlyWhen : Obligations.UnmatchedClosingBracketRaisedExactlyWhen := by
  refine ⟨rfl, fun s t hrun herr hdp hstep => ⟨?_, fun ht => ?_⟩⟩
  · rw [step_aborts_iff_raises hrun hstep, State.Raises, and_iff_right hdp]
  · obtain ⟨hab, -, hpc⟩ := aborted_of_step_err hrun herr hstep ht nofun
    exact ⟨hab, hpc⟩

/-- Settles O39: the condition of the kind. -/
theorem unmatchedOpeningBracketRaisedExactlyWhen : Obligations.UnmatchedOpeningBracketRaisedExactlyWhen := by
  refine ⟨rfl, fun s t hrun herr _ hstep => ⟨step_aborts_iff_raises hrun hstep, fun ht => ?_⟩⟩
  obtain ⟨hab, -, hpc⟩ := aborted_of_step_err hrun herr hstep ht nofun
  exact ⟨hab, hpc⟩

/-- Settles O40: the condition of the kind, which on the tape is met at its two ends alone. -/
theorem badMemoryPointerRaisedExactlyWhen : Obligations.BadMemoryPointerRaisedExactlyWhen := by
  refine ⟨rfl, fun s t hrun herr hdp hstep => ⟨?_, (aborted_of_step_err hrun herr hstep · nofun)⟩⟩
  rw [step_aborts_iff_raises hrun hstep, raises_badMemoryPointer_iff hdp]

/-- Settles O41: the fetch fails exactly above `N`, and a run keeps `pc` at or below it. -/
theorem badCommandPointerRaisedExactlyWhen : Obligations.BadCommandPointerRaisedExactlyWhen :=
  ⟨rfl, fun _ hrun hpc => step_of_no_fetch hrun (State.fetch_eq_none.2 hpc),
    fun _ _ hrun herr hstep ht =>
      (step_aborts_iff_raises hrun hstep).1 ⟨(aborted_of_step_err hrun herr hstep ht nofun).1, ht⟩,
    fun _ => reachable_err_ne_badCommandPointer⟩
end

section
/-! SUPPORT. Decoding and encoding as inverse functions, the rows of the opcode table against the decoder's branches,
the bits that a match compares, and the statements of 30_encoding.md that follow. -/

namespace Sys2Proof

/-! ### The word of an instruction decodes to it -/

/-- A character that is not `TERM_CHAR` decodes as it does where there is no `TERM_CHAR`. -/
theorem decode_charWord_of_ne {tc : Option Nat} {c : Nat} (h : tc ≠ some c) :
    decode tc (charWord c) = decode none (charWord c) :=
  decode_eq_decode_none (by simp [h])

/-- Decoding the word of an instruction that `TERM_CHAR` allows gives the instruction back. -/
theorem decode_encode {b : Nat} {tc : Option Nat} {i : Instr} (h : i.wf b tc = true) : decode tc (encode i) = i := by
  obtain ⟨-, hallowed⟩ := Bool.and_eq_true_iff.1 h
  cases i with
  | halt t =>
    cases t with
    | tagged c => rfl
    | sentinel c =>
      have hterm : isTerm tc (charWord c) = true := by rwa [isTerm_charWord]
      exact decode_of_isTerm hterm
  | ptrInc | ptrDec | cellInc | cellDec | out | inp | loopStart | loopEnd =>
    exact decode_charWord_of_ne (bne_iff_ne.1 hallowed)
  | comment c =>
    obtain ⟨hc, htc⟩ := Bool.and_eq_true_iff.1 hallowed
    exact decode_charWord_of_not_mem (by simpa using hc) (bne_iff_ne.1 htc)

theorem code_lt_of_wf {b : Nat} {tc : Option Nat} {i : Instr} (h : i.wf b tc = true) : (encode i).code < 2 ^ b :=
  of_decide_eq_true (Bool.and_eq_true_iff.1 h).1

/-! ### A word is the word of what it decodes to -/

/-- The four kinds of word (R84 to R86): tagged, the sentinel, one of the eight commands, any other character. -/
theorem word_cases (tc : Option Nat) (w : PWord) :
    (∃ c, w = { tag := true, code := c }) ∨ (∃ c, w = charWord c ∧ tc = some c) ∨
    (∃ c ∈ commandCodes, w = charWord c ∧ tc ≠ some c) ∨
    (∃ c, c ∉ commandCodes ∧ w = charWord c ∧ tc ≠ some c) := by
  cases htag : w.tag with
  | true => exact .inl ⟨w.code, by rw [← htag]⟩
  | false =>
    have hw := eq_charWord_of_tag htag
    by_cases htc : tc = some w.code
    · exact .inr (.inl ⟨_, hw, htc⟩)
    · by_cases hc : w.code ∈ commandCodes
      · exact .inr (.inr (.inl ⟨_, hc, hw, htc⟩))
      · exact .inr (.inr (.inr ⟨_, hc, hw, htc⟩))

theorem decode_sentinel (c : Nat) : decode (some c) (charWord c) = .halt (.sentinel c) :=
  decode_of_isTerm (by simp)

/-- Each command code is the code of the command it decodes to. -/
theorem encode_decode_command : ∀ c ∈ commandCodes, encode (decode none (charWord c)) = charWord c := by decide

theorem encode_decode (tc : Option Nat) (w : PWord) : encode (decode tc w) = w := by
  obtain ⟨c, rfl⟩ | ⟨c, rfl, rfl⟩ | ⟨c, hc, rfl, htc⟩ | ⟨c, hc, rfl, htc⟩ := word_cases tc w
  · rfl
  · rw [decode_sentinel, encode]
  · rw [decode_charWord_of_ne htc, encode_decode_command c hc]
  · rw [decode_charWord_of_not_mem hc htc, encode]

theorem wf_command {b c : Nat} {tc : Option Nat} (hc : c ∈ commandCodes) (hlt : c < 2 ^ b) (htc : tc ≠ some c) :
    (decode none (charWord c)).wf b tc = true := by
  simp only [commandCodes, List.mem_cons, List.not_mem_nil, or_false] at hc
  rcases hc with rfl | rfl | rfl | rfl | rfl | rfl | rfl | rfl <;>
    exact Bool.and_eq_true_iff.2 ⟨decide_eq_true hlt, bne_iff_ne.2 htc⟩

/-- What a word decodes to is well formed, if the word's code fits. -/
theorem wf_decode {b : Nat} {tc : Option Nat} {w : PWord} (h : w.code < 2 ^ b) : (decode tc w).wf b tc = true := by
  have hfits : decide ((decode tc w).code < 2 ^ b) = true := decide_eq_true (by rwa [Instr.code, encode_decode])
  obtain ⟨c, rfl⟩ | ⟨c, rfl, rfl⟩ | ⟨c, hc, rfl, htc⟩ | ⟨c, hc, rfl, htc⟩ := word_cases tc w
  · exact Bool.and_eq_true_iff.2 ⟨hfits, rfl⟩
  · rw [decode_sentinel] at hfits ⊢
    exact Bool.and_eq_true_iff.2 ⟨hfits, beq_self_eq_true _⟩
  · rw [decode_charWord_of_ne htc]
    exact wf_command hc h htc
  · rw [decode_charWord_of_not_mem hc htc] at hfits ⊢
    have hallowed : (!commandCodes.contains c && tc != some c) = true := by simp [hc, htc]
    exact Bool.and_eq_true_iff.2 ⟨hfits, hallowed⟩

/-! ### The rows of the opcode table -/

/-- A word matches a code exactly when its bits are those of the word of that code. -/
theorem isCmd_ofBits_eq_beq {b : Nat} (w : BitVec (b + 1)) {c : Nat} (hc : c < 2 ^ b) :
    isCmd (.ofBits w) c = (w == (charWord c).toBits b) := by
  have hbits : PWord.ofBits ((charWord c).toBits b) = charWord c := PWord.ofBits_toBits hc
  rw [Bool.eq_iff_iff, isCmd_iff, beq_iff_eq]
  constructor
  · intro h
    rw [← h, PWord.toBits_ofBits]
  · rintro rfl
    exact hbits

/-- One row of the table against the decoder's branch for it: where the row does not match, the rows after it agree with
the later branches. -/
theorem find?_row_eq {w : Bits22} {r : OpcodeRow} {rows : List OpcodeRow} {c : Bool} {i j : Instr}
    (hmatch : (w &&& r.mask == r.pattern) = c) (hname : r.mnemonic = i.mnemonic)
    (hrest : c = false → (rows.find? fun r => w &&& r.mask == r.pattern).map (·.mnemonic) = some j.mnemonic) :
    ((r :: rows).find? fun r => w &&& r.mask == r.pattern).map (·.mnemonic) =
      some (if c then i else j).mnemonic := by
  simp only [List.find?_cons, hmatch]
  cases c with
  | true => exact congrArg some hname
  | false => exact hrest rfl

/-- The row of a command, whose mask is all ones, is matched by the word of its code alone. -/
theorem find?_commandRow_eq {w : Bits22} {r : OpcodeRow} {rows : List OpcodeRow} {c : Nat} {i j : Instr}
    (hc : c < 2 ^ 21) (hrow : r = ⟨i.mnemonic, (charWord c).toBits 21, BitVec.allOnes 22⟩)
    (hrest : (rows.find? fun r => w &&& r.mask == r.pattern).map (·.mnemonic) = some j.mnemonic) :
    ((r :: rows).find? fun r => w &&& r.mask == r.pattern).map (·.mnemonic) =
      some (if isCmd (.ofBits w) c then i else j).mnemonic := by
  subst hrow
  refine find?_row_eq ?_ rfl fun _ => hrest
  rw [BitVec.and_allOnes, isCmd_ofBits_eq_beq w hc]

/-- The mask of `HALT` and of `COMMENT` leaves the tag alone. -/
theorem tagMask_eq (w : Bits22) : w &&& 0x200000#22 = if w.msb then 0x200000#22 else 0#22 := by
  have htag : (0x200000#22 : Bits22) = BitVec.twoPow 22 21 := rfl
  rw [htag, BitVec.and_twoPow, BitVec.msb_eq_getLsbD_last]

theorem isTerm_none_ofBits {b : Nat} (w : BitVec (b + 1)) : isTerm none (.ofBits w) = w.msb := by
  simp [isTerm, isSentinel]

/-- A word with the tag bit is matched by the first row, which is `HALT`. -/
theorem haltRow_match_eq_isTerm (w : Bits22) :
    (w &&& 0x200000#22 == 0x200000#22) = isTerm none (.ofBits w) := by
  rw [tagMask_eq, isTerm_none_ofBits]
  cases w.msb <;> rfl

theorem commentRow_match_eq_not_isTerm (w : Bits22) :
    (w &&& 0x200000#22 == 0x000000#22) = !isTerm none (.ofBits w) := by
  rw [tagMask_eq, isTerm_none_ofBits]
  cases w.msb <;> rfl

/-! ### The bits that a match compares (R83) -/

/-- A code field is `c` exactly when `c` fits in it and each bit is that of `c`. -/
theorem ofBits_code_eq_iff {b : Nat} (w : BitVec (b + 1)) (c : Nat) :
    (PWord.ofBits w).code = c ↔ c < 2 ^ b ∧ ∀ k < b, w.getLsbD k = c.testBit k := by
  have hbit : ∀ k < b, (PWord.ofBits w).code.testBit k = w.getLsbD k := fun k hk => by
    simp [PWord.ofBits, hk, BitVec.testBit_toNat]
  constructor
  · rintro rfl
    exact ⟨PWord.ofBits_code_lt w, fun k hk => (hbit k hk).symm⟩
  · rintro ⟨hc, hbits⟩
    refine Nat.eq_of_testBit_eq fun k => ?_
    by_cases hk : k < b
    · rw [hbit k hk, hbits k hk]
    · have hpow : 2 ^ b ≤ 2 ^ k := Nat.pow_le_pow_right (by decide) (Nat.le_of_not_lt hk)
      rw [Nat.testBit_lt_two_pow (Nat.lt_of_lt_of_le (PWord.ofBits_code_lt w) hpow),
        Nat.testBit_lt_two_pow (Nat.lt_of_lt_of_le hc hpow)]

/-- The command codes are codes of bytes (R82). -/
theorem lt_256_of_mem_commandCodes : ∀ c ∈ commandCodes, c < 256 := by decide

/-! ### A number read as a word -/

theorem decodeBits_of_decodeRaw {b : Nat} {tc : Option Nat} {n : Nat} {i : Instr} (h : decodeRaw b tc n = .ok i) :
    decodeBits tc (BitVec.ofNat (b + 1) n) = i := by
  unfold decodeRaw at h
  split at h <;> cases h
  rfl

/-- The opcode table's reading of a number is the decoder's, with the table's parameters. -/
theorem decodeRaw_of_decodeTableWord {nbits w : Nat} {i : Instr} (h : decodeTableWord nbits w = some i) :
    decodeRaw 21 none (w % 2 ^ nbits) = .ok i := by
  unfold decodeTableWord at h
  split at h <;> cases h
  assumption

end Sys2Proof

namespace Sys2Proof.Machine

/-- A placed word is the word at its index. -/
theorem ProgMem.word?_place (p : ProgMem) (i : Nat) (w : PWord) : (p.place i w).word? i = some w := by
  refine ProgMem.word?_of_text ?_
  unfold ProgMem.place
  by_cases hi : i < p.len
  · rw [if_pos hi]
    exact List.getElem?_set_self hi
  · rw [if_neg hi]
    have hlen : (p.text ++ List.replicate (i - p.len) (charWord 0)).length = i := by
      rw [List.length_append, List.length_replicate]
      exact Nat.add_sub_cancel' (Nat.le_of_not_lt hi)
    exact (congrArg (_[·]?) hlen).symm.trans List.getElem?_concat_length

/-- The step after a word is placed runs what its bits decode to (R190; log entry 12). -/
theorem step_withFetchWord {s : State} {nbits w : Nat} {i : Instr}
    (h : decodeRaw s.progCharBits s.termChar (w % 2 ^ nbits) = .ok i) :
    step (s.withFetchWord nbits w) = exec i (s.withFetchWord nbits w) := by
  rw [← decodeBits_of_decodeRaw h]
  exact step_of_fetch rfl (ProgMem.word?_place ..)

end Sys2Proof.Machine

/-! ### The statements -/

open Sys2Proof Sys2Proof.Machine

/-- Settles O1: the bits of the word give its fields back, and the fields the instruction. -/
theorem decodeGivesBackEncodedInstr : Obligations.DecodeGivesBackEncodedInstr := by
  intro b tc i hwf
  rw [decodeBits, encodeBits, PWord.ofBits_toBits (code_lt_of_wf hwf), decode_encode hwf]

/-- Settles O2: the fields of a word are those of what it decodes to, whose code is the word's. -/
theorem encodeGivesBackDecodedWord : Obligations.EncodeGivesBackDecodedWord := by
  intro b tc w
  refine ⟨?_, wf_decode (PWord.ofBits_code_lt w)⟩
  rw [encodeBits, decodeBits, encode_decode, PWord.toBits_ofBits]

/-- Settles O3: the rows match where the decoder branches, in the same order; a word that no row before the last matches
has no tag. -/
theorem decodeFollowsOpcodeTable : Obligations.DecodeFollowsOpcodeTable := by
  intro w
  refine find?_row_eq (haltRow_match_eq_isTerm w) rfl fun hterm => ?_
  refine find?_commandRow_eq (by decide) rfl <| find?_commandRow_eq (by decide) rfl <|
    find?_commandRow_eq (by decide) rfl <| find?_commandRow_eq (by decide) rfl <|
    find?_commandRow_eq (by decide) rfl <| find?_commandRow_eq (by decide) rfl <|
    find?_commandRow_eq (by decide) rfl <| find?_commandRow_eq (by decide) rfl ?_
  simp [commentRow_match_eq_not_isTerm, hterm, Instr.mnemonic]

/-- Settles O5: the decoder evaluates each of the words. -/
theorem wordsOfTheOpcodeMapDecode : Obligations.WordsOfTheOpcodeMapDecode := by
  unfold Obligations.WordsOfTheOpcodeMapDecode
  decide

/-- Settles O6: the tag is the bit above the code, and a code of 256 or more is no command code. -/
theorem commandMatchComparesAllBits : Obligations.CommandMatchComparesAllBits := by
  refine ⟨fun b w c => ?_, fun tc w htag htc hwide => ?_⟩
  · rw [isCmd, Bool.and_eq_true_iff, beq_iff_eq, ofBits_code_eq_iff, PWord.ofBits_tag, BitVec.msb_eq_getLsbD_last,
      Bool.not_eq_true', Nat.add_sub_cancel]
  · rw [eq_charWord_of_tag htag]
    exact decode_charWord_of_not_mem (fun hc => Nat.not_lt.2 hwide (lt_256_of_mem_commandCodes _ hc)) htc

/-- Settles O15: the placed word is what the next step fetches, and it decodes as the number did. -/
theorem placedWordRunsNext : Obligations.PlacedWordRunsNext := by
  refine ⟨fun s nbits w i => step_withFetchWord, fun s nbits w i hbits htc h => step_withFetchWord ?_⟩
  rw [hbits, htc, decodeRaw_of_decodeTableWord h]
end

section
/-! SUPPORT. Which resets are accepted; the parts of the invariant of a run, each kept by every step; that a step from it
goes on; and the statements of 70_reset_and_hazards.md and of the invariant that follow. -/

namespace Sys2Proof.Machine

/-! ### Accepted resets (R250 to R252) -/

/-- None of the grounds of R252 for refusing a reset holds. -/
structure Accepted (p : Params) (h : HostInputs) : Prop where
  tapeLen : h.tapeLen ≠ 0
  termChar : ∀ c, p.termChar = some c → c ∉ commandCodes
  text : ∀ n ∈ h.text, n < 2 ^ p.progCharBits
  input : ∀ n ∈ h.input.getD [], n < 2 ^ p.inCharBits
  progMax : ∀ m, p.progMax = some m → h.text.length ≤ m

theorem termCharIsCommand_eq_false {tc : Option Nat} :
    termCharIsCommand tc = false ↔ ∀ c, tc = some c → c ∉ commandCodes := by
  cases tc <;> simp [termCharIsCommand]

theorem any_tooWide_eq_false {bits : Nat} {codes : List Nat} :
    codes.any (tooWide bits) = false ↔ ∀ n ∈ codes, n < 2 ^ bits := by
  simp [tooWide]

theorem tooLong_eq_false {progMax : Option Nat} {n : Nat} :
    tooLong progMax n = false ↔ ∀ m, progMax = some m → n ≤ m := by
  cases progMax <;> simp [tooLong]

/-- A guard that may refuse answers a next state exactly when it does not, and what comes after it does. -/
theorem guard_eq_next {c : Prop} [Decidable c] {r : Refusal} {k : Result} {s : State} :
    (if c then .refused r else k) = .next s ↔ ¬ c ∧ k = .next s := by
  by_cases hc : c <;> simp [hc]

theorem construct_eq_next {p : Params} {h : HostInputs} {s : State} :
    construct p h = .next s ↔ Accepted p h ∧ resetState p h.text (h.input.getD []) h.tapeLen = s := by
  simp only [construct, guard_eq_next, Bool.not_eq_true, termCharIsCommand_eq_false, any_tooWide_eq_false,
    tooLong_eq_false, Host.Outcome.next.injEq]
  exact ⟨fun ⟨htape, hterm, htext, hinput, hmax, hs⟩ => ⟨⟨htape, hterm, htext, hinput, hmax⟩, hs⟩,
    fun ⟨⟨htape, hterm, htext, hinput, hmax⟩, hs⟩ => ⟨htape, hterm, htext, hinput, hmax, hs⟩⟩

theorem guard_ne_fault {c : Prop} [Decidable c] {r : Refusal} {k : Result} {f : Fault} (hk : k ≠ .fault f) :
    (if c then .refused r else k) ≠ .fault f := by
  by_cases hc : c
  · rw [if_pos hc]
    nofun
  · rwa [if_neg hc]

theorem construct_ne_fault (p : Params) (h : HostInputs) (f : Fault) : construct p h ≠ .fault f :=
  guard_ne_fault <| guard_ne_fault <| guard_ne_fault <| guard_ne_fault <| guard_ne_fault nofun

/-- The bits of the loaded program memory, as numbers: the text, and the tag alone (R81). -/
theorem map_toBits_extended {b : Nat} {text : List Nat} (h : ∀ n ∈ text, n < 2 ^ b) :
    (ProgMem.mk (text.map charWord) terminatorWord).extended.map (fun w => (w.toBits b).toNat) =
      text ++ [2 ^ b] := by
  have hterm : (terminatorWord.toBits b).toNat = 2 ^ b := by
    rw [PWord.toNat_toBits (Nat.two_pow_pos b)]
    simp
  have hchar : ∀ n ∈ text, ((charWord n).toBits b).toNat = n := fun n hn => by
    rw [PWord.toNat_toBits (h n hn)]
    simp
  rw [ProgMem.extended, List.map_append, List.map_map, List.map_singleton, hterm]
  exact congrArg (· ++ [2 ^ b]) ((List.map_congr_left hchar).trans text.map_id')

/-! ### The invariant after a reset -/

theorem inv_of_construct {p : Params} {h : HostInputs} {s : State} (hs : construct p h = .next s) : s.Inv := by
  obtain ⟨⟨htape, hterm, htext, hinput, -⟩, rfl⟩ := construct_eq_next.1 hs
  refine ⟨⟨rfl, nofun, Nat.pos_of_ne_zero htape⟩,
    ⟨fun w hw => ?_, rfl, termCharIsCommand_eq_false.2 hterm, Nat.zero_le _⟩, hinput, ⟨nofun, nofun⟩, nofun⟩
  obtain ⟨n, hn, rfl⟩ := List.mem_map.1 hw
  exact ⟨rfl, htext n hn⟩

/-! ### A step keeps each part of the invariant -/

/-- A step leaves the tape, or stores one value in the current cell. -/
theorem step_tape {s t : State} (h : step s = .next t) : t.tape = s.tape ∨ ∃ v, t.tape = s.tape.write s.dp v := by
  obtain ⟨-, rfl⟩ | ⟨-, -, rfl⟩ | ⟨-, i, -, hexec⟩ := step_next.1 h
  · exact .inl rfl
  · exact .inl rfl
  · exact (exec_writesOnly hexec).tape

/-- The cursor commands check the tape's bounds before they move (R122, R123). -/
theorem exec_dp_lt {i : Instr} {s t : State} (h : exec i s = .next t) (hdp : s.dp < s.tapeLen) : t.dp < s.tapeLen := by
  obtain hsame | ⟨rfl, -⟩ | ⟨-, hleft⟩ := (exec_writesOnly h).dp
  · rwa [hsame]
  · obtain ⟨hlt, rfl⟩ | ⟨-, rfl⟩ := exec_next.1 h
    · exact hlt
    · exact hdp
  · omega

theorem step_dp_lt {s t : State} (hdp : s.dp < s.tapeLen) (h : step s = .next t) : t.dp < t.tapeLen := by
  have hlen : t.tapeLen = s.tapeLen := congrArg RunConfig.tapeLen (step_runConfig h)
  rw [hlen]
  obtain ⟨-, rfl⟩ | ⟨-, -, rfl⟩ | ⟨-, i, -, hexec⟩ := step_next.1 h
  · exact hdp
  · exact hdp
  · exact exec_dp_lt hexec hdp

theorem step_tapeOk {s t : State} (hs : s.TapeOk) (h : step s = .next t) : t.TapeOk := by
  obtain ⟨hwf, hlisted, hdp⟩ := hs
  have hlen : t.tapeLen = s.tapeLen := congrArg RunConfig.tapeLen (step_runConfig h)
  refine ⟨?_, ?_, step_dp_lt hdp h⟩
  · obtain htape | ⟨v, htape⟩ := step_tape h
    · rwa [htape]
    · rw [htape]
      exact Memory.wf_write hwf _ _
  · rw [hlen]
    obtain htape | ⟨v, htape⟩ := step_tape h
    · rwa [htape]
    · rw [htape]
      intro c hc
      obtain rfl | hold := Memory.mem_write hc
      · exact hdp
      · exact hlisted c hold

theorem step_progOk {s t : State} (hs : s.ProgOk) (h : step s = .next t) : t.ProgOk := by
  obtain ⟨htext, hlast, htc, hpc⟩ := hs
  have hconfig := step_runConfig h
  have hbits : t.progCharBits = s.progCharBits := congrArg RunConfig.progCharBits hconfig
  have hterm : t.termChar = s.termChar := congrArg RunConfig.termChar hconfig
  rw [State.ProgOk, step_prog h, hbits, hterm]
  exact ⟨htext, hlast, htc, step_pc_le hlast hpc h⟩

theorem step_inputOk {s t : State} (hs : s.InputOk) (h : step s = .next t) : t.InputOk := by
  have hbits : t.inCharBits = s.inCharBits := congrArg RunConfig.inCharBits (step_runConfig h)
  intro c hc
  rw [hbits]
  obtain hsame | ⟨-, -, d, hhead⟩ := inputQueueOnlyLosesItsHead.1 s t h
  · exact hs c (hsame ▸ hc)
  · exact hs c (hhead ▸ List.mem_cons_of_mem d hc)

theorem raises_ne_noError {s : State} {k : ErrKind} (h : s.Raises k) : k ≠ .noError := by
  rintro rfl
  exact h

theorem step_statusOk {s t : State} (hpc : s.pc ≤ s.prog.len) (hs : s.StatusOk) (h : step s = .next t) :
    t.StatusOk := by
  obtain ⟨herr, hfetch⟩ := hs
  refine ⟨?_, step_err_ne_badCommandPointer hpc hfetch h⟩
  by_cases hrun : s.status = .running
  · obtain ⟨hkept, hnot⟩ | ⟨k, hraises, iq, rfl⟩ := step_keepsErr_or_aborts hrun h
    · rw [hkept, ← herr, hrun]
      exact iff_of_false hnot nofun
    · exact iff_of_true rfl (raises_ne_noError hraises)
  · obtain rfl := Host.Outcome.next.inj ((step_of_ended hrun).symm.trans h)
    exact herr

theorem step_inv {s t : State} (hs : s.Inv) (h : step s = .next t) : t.Inv := by
  obtain ⟨htape, hprog, hinput, hstatus⟩ := hs
  obtain ⟨-, -, -, hpc⟩ := id hprog
  exact ⟨step_tapeOk htape h, step_progOk hprog h, step_inputOk hinput h, step_statusOk hpc hstatus h⟩

/-- The induction over the states of runs, once. -/
theorem reachable_inv {s : State} (h : Reachable s) : s.Inv := by
  induction h with
  | constructed p h s hs => exact inv_of_construct hs
  | stepped s t _ hstep ih => exact step_inv ih hstep

/-! ### A step from the invariant goes on -/

theorem step_goes_on {s : State} (hdp : s.dp < s.tapeLen) : ∃ t, step s = .next t := by
  by_cases hrun : s.status = .running
  · exact ⟨_, stepIsThePseudocode s hrun hdp⟩
  · exact ⟨s, step_of_ended hrun⟩

theorem safe_of_inv {s : State} (hs : s.Inv) : s.Safe := by
  intro k
  induction k generalizing s with
  | zero => exact ⟨s, rfl⟩
  | succ k ih =>
    obtain ⟨⟨-, -, hdp⟩, -⟩ := id hs
    obtain ⟨u, hu⟩ := step_goes_on hdp
    obtain ⟨t, ht⟩ := ih (step_inv hs hu)
    exact ⟨t, run_succ.2 ⟨u, hu, ht⟩⟩

end Sys2Proof.Machine

/-! ### The statements -/

open Sys2Proof Sys2Proof.Machine

/-- Settles O52, part by part of the invariant. -/
theorem stepKeepsInvariant : Obligations.StepKeepsInvariant := fun _ _ => step_inv

/-- Settles O55, by induction on the number of steps: a step from the invariant goes on, and keeps it. -/
theorem runsNeverStop : Obligations.RunsNeverStop := fun _ => safe_of_inv

/-- Settles O54: the grounds on which a reset is refused are what the invariant asks of its inputs. -/
theorem constructedStatesHaveInvariant : Obligations.ConstructedStatesHaveInvariant := fun _ _ _ => inv_of_construct

/-- Settles O53: `State.reset` is what a reset with no inputs constructs. -/
theorem resetHasInvariant : Obligations.ResetHasInvariant :=
  inv_of_construct (p := Config.params) (h := Config.noInputs) rfl

/-- Settles O25, from the invariant of a run, and from what every step keeps. -/
theorem dataPointerStaysOnTheTape : Obligations.DataPointerStaysOnTheTape := by
  refine ⟨fun s hs => ?_, fun s t => step_dp_lt⟩
  obtain ⟨⟨-, -, hdp⟩, -⟩ := reachable_inv hs
  exact hdp

/-- Settles O56: `pc` is at most `N` in every state of a run, and the invariant holds after the step. -/
theorem programCounterStaysInRange : Obligations.ProgramCounterStaysInRange := by
  refine ⟨fun s hs => (reachable_pc_le hs).2, fun s t hs _ hstep => ?_⟩
  obtain ⟨-, ⟨-, -, -, hpc⟩, -⟩ := step_inv hs hstep
  exact hpc

/-- Settles O57: the reset state field by field; that the codes of the text fit makes its bits the text. -/
theorem resetSetsEveryState : Obligations.ResetSetsEveryState := by
  intro p h s hs
  obtain ⟨⟨-, -, htext, -, -⟩, rfl⟩ := construct_eq_next.1 hs
  exact ⟨Memory.read_nil, rfl, rfl, rfl, rfl, rfl, rfl, rfl, rfl, rfl, rfl, map_toBits_extended htext⟩

/-- Settles O58: the grounds of R252 one by one. -/
theorem resetIsRefusedExactlyWhen : Obligations.ResetIsRefusedExactlyWhen := by
  refine fun p h => ⟨⟨fun ⟨s, hs⟩ => ?_, fun ⟨htape, hterm, htext, hinput, hmax⟩ => ?_⟩, construct_ne_fault p h⟩
  · obtain ⟨⟨htape, hterm, htext, hinput, hmax⟩, -⟩ := construct_eq_next.1 hs
    exact ⟨htape, hterm, htext, hinput, hmax⟩
  · exact ⟨_, construct_eq_next.2 ⟨⟨htape, hterm, htext, hinput, hmax⟩, rfl⟩⟩

/-- Settles O60: the bounds of the invariant, under the two inequalities; the terminator's code is 0. -/
theorem registersFitTheirWidths : Obligations.RegistersFitTheirWidths := by
  refine ⟨fun s pcBits dpBits hs hprog htape => ?_, fun s hs => ?_⟩
  · obtain ⟨⟨-, -, hdp⟩, ⟨-, -, -, hpc⟩, -⟩ := reachable_inv hs
    have hpow : 2 ^ dpBits < 2 ^ (dpBits + 1) := Nat.pow_lt_pow_succ (by decide)
    exact ⟨by omega, hprog, by omega, by omega⟩
  · obtain ⟨-, ⟨htext, hlast, -⟩, hinput, -⟩ := reachable_inv hs
    refine ⟨hinput, fun w hw => ?_⟩
    obtain hw | hw := List.mem_append.1 hw
    · exact (htext w hw).2
    · rw [List.mem_singleton.1 hw, hlast]
      exact Nat.two_pow_pos _

/-- Settles O59: the read index and the numbers are tables, which `cases` reads off row by row. -/
theorem hostReadsTheRegisters : Obligations.HostReadsTheRegisters := by
  refine ⟨fun s => ⟨rfl, rfl, rfl, rfl, rfl, rfl, fun n hn => ?_⟩, rfl, rfl, rfl, rfl, rfl, rfl, rfl, rfl, rfl, ?_, ?_⟩
  · obtain ⟨k, rfl⟩ := Nat.exists_eq_add_of_le' hn
    rfl
  · intro a b
    cases a <;> cases b <;> decide
  · intro a b
    cases a <;> cases b <;> decide
end

section
/-! SUPPORT. That `wrap` respects remainders, and the statement of 40_cell_alu.md on repeated increments and decrements
that follows. -/

namespace Sys2Proof.Machine

/-- `wrap` sees an integer only through its remainder (R100). -/
theorem wrap_congr {m n : Int} (h : m % 256 = n % 256) : wrap m = wrap n := by
  apply BitVec.eq_of_toNat_eq
  have hm := toNat_wrap m
  have hn := toNat_wrap n
  omega

theorem increment_wrap (n : Int) : increment (wrap n) = wrap (n + 1) := by
  rw [increment, toNat_wrap]
  exact wrap_congr (Int.emod_add_emod ..)

theorem decrement_wrap (n : Int) : decrement (wrap n) = wrap (n - 1) := by
  rw [decrement, toNat_wrap]
  exact wrap_congr (Int.emod_sub_emod ..)

theorem decrement_increment (x : Byte) : decrement (increment x) = x := by
  rw [increment, decrement_wrap, Int.add_sub_cancel, wrap_toNat_byte]

theorem increment_decrement (x : Byte) : increment (decrement x) = x := by
  rw [decrement, increment_wrap, Int.sub_add_cancel, wrap_toNat_byte]

theorem repeat_increment (k : Nat) (x : Byte) : Nat.repeat increment k x = wrap (x.toNat + k) := by
  induction k with
  | zero => simp [Nat.repeat]
  | succ k ih => rw [Nat.repeat, ih, increment_wrap, Int.add_assoc, Int.natCast_succ]

theorem repeat_decrement (k : Nat) (x : Byte) : Nat.repeat decrement k x = wrap (x.toNat - k) := by
  induction k with
  | zero => simp [Nat.repeat]
  | succ k ih => rw [Nat.repeat, ih, decrement_wrap, Int.sub_sub, Int.natCast_succ]

end Sys2Proof.Machine

/-! ### The statements -/

open Sys2Proof Sys2Proof.Machine

/-- Settles O18: `k` increments by induction on `k`, and 256 of them are a multiple of the modulus. -/
theorem incrementAndDecrementAreInverse : Obligations.IncrementAndDecrementAreInverse := by
  refine ⟨fun x => ⟨decrement_increment x, increment_decrement x⟩, repeat_increment, repeat_decrement, fun x => ?_⟩
  rw [repeat_increment]
  exact (wrap_congr (Int.add_emod_right ..)).trans (wrap_toNat_byte x)
end

section
/-! SUPPORT. What `,` answers on each kind of queue, what one step and a run do to the two streams, and the statements
of 42_io.md that follow. -/

namespace Sys2Proof.Machine

/-! ### What `,` answers (R141, R225) -/

/-- `,` on an empty queue only advances. -/
theorem exec_inp_of_nil {s : State} (hq : s.iq = []) : exec .inp s = .next { s with pc := s.pc + 1 } :=
  exec_next.2 (.inl ⟨hq, rfl⟩)

/-- `,` on a character up to 255 stores it in the current cell. -/
theorem exec_inp_of_byte {s : State} {c : Nat} {rest : List Nat} (hdp : s.dp < s.tapeLen) (hq : s.iq = c :: rest)
    (hc : c ≤ 255) :
    exec .inp s = .next { s with tape := s.tape.write s.dp (wrap c), iq := rest, pc := s.pc + 1 } :=
  exec_next.2 (.inr (.inl ⟨c, rest, hq, hc, hdp, rfl⟩))

/-- `,` on a character above 255 takes it and aborts. -/
theorem exec_inp_of_wide {s : State} {c : Nat} {rest : List Nat} (hq : s.iq = c :: rest) (hc : 255 < c) :
    exec .inp s = .next (State.raise { s with iq := rest } .badInput) :=
  exec_next.2 (.inr (.inr ⟨c, rest, hq, hc, rfl⟩))

theorem toNat_wrap_of_le {c : Nat} (hc : c ≤ 255) : (wrap c).toNat = c := by
  have h := toNat_wrap c
  omega

/-! ### What a step and a run do to the streams (R46, R47, R143) -/

/-- A step leaves the output stream, or it has fetched `.` and appends the current cell. -/
theorem step_out {s t : State} (h : step s = .next t) :
    t.out = s.out ∨ (s.status = .running ∧ s.Fetches .out ∧ t.out = s.out ++ [s.tape.read s.dp]) := by
  obtain ⟨-, rfl⟩ | ⟨-, -, rfl⟩ | ⟨hrun, i, hf, hexec⟩ := step_next.1 h
  · exact .inl rfl
  · exact .inl rfl
  · obtain hsame | ⟨rfl, hout⟩ := (exec_writesOnly hexec).out
    · exact .inl hsame
    · exact .inr ⟨hrun, hf, hout⟩

/-- `t` has taken at most `k` characters from the head of the queue of `s`, and emitted at most `k` values after its
output. -/
def StreamsMove (k : Nat) (s t : State) : Prop :=
  (∃ used, s.iq = used ++ t.iq ∧ used.length ≤ k) ∧ (∃ new, t.out = s.out ++ new ∧ new.length ≤ k)

theorem StreamsMove.refl (s : State) : StreamsMove 0 s s :=
  ⟨⟨[], rfl, Nat.le_refl 0⟩, [], (List.append_nil _).symm, Nat.le_refl 0⟩

theorem StreamsMove.trans {j k : Nat} {s t u : State} (hst : StreamsMove j s t) (htu : StreamsMove k t u) :
    StreamsMove (j + k) s u := by
  obtain ⟨⟨used, hq, hused⟩, new, hout, hnew⟩ := hst
  obtain ⟨⟨used', hq', hused'⟩, new', hout', hnew'⟩ := htu
  refine ⟨⟨used ++ used', by rw [hq, hq', List.append_assoc], ?_⟩,
    new ++ new', by rw [hout', hout, List.append_assoc], ?_⟩
  · rw [List.length_append]
    exact Nat.add_le_add hused hused'
  · rw [List.length_append]
    exact Nat.add_le_add hnew hnew'

theorem step_streams {s t : State} (h : step s = .next t) : StreamsMove 1 s t := by
  constructor
  · obtain hsame | ⟨-, -, c, hhead⟩ := inputQueueOnlyLosesItsHead.1 s t h
    · exact ⟨[], hsame.symm, Nat.zero_le 1⟩
    · exact ⟨[c], hhead, Nat.le_refl 1⟩
  · obtain hsame | ⟨-, -, hout⟩ := step_out h
    · exact ⟨[], by rw [hsame, List.append_nil], Nat.zero_le 1⟩
    · exact ⟨_, hout, Nat.le_refl 1⟩

theorem run_streams {k : Nat} {s t : State} (h : core.run k s = .next t) : StreamsMove k s t := by
  induction k generalizing s with
  | zero =>
    obtain rfl := Host.Outcome.next.inj h
    exact StreamsMove.refl s
  | succ k ih =>
    obtain ⟨u, hu, ht⟩ := run_succ.1 h
    rw [Nat.add_comm]
    exact (step_streams hu).trans (ih ht)

end Sys2Proof.Machine

/-! ### The statements -/

open Sys2Proof Sys2Proof.Machine

/-- Settles O27: the word of `,`, and its three answers. -/
theorem inpReadsOneCharacter : Obligations.InpReadsOneCharacter := by
  refine ⟨by decide, fun s => exec_inp_of_nil, fun s c rest ⟨hwf, _, hdp⟩ hq hc => ?_, fun s c rest => exec_inp_of_wide⟩
  refine ⟨_, exec_inp_of_byte hdp hq hc, ?_, fun a ha => Memory.read_write_of_ne _ _ ha, rfl⟩
  rw [Memory.read_write_same hwf, toNat_wrap_of_le hc]

/-- Settles O28: on 8-bit characters only the first two answers of `,` are possible. -/
theorem byteInputNeverAborts : Obligations.ByteInputNeverAborts := by
  intro s ⟨_, _, hdp⟩ hbytes
  cases hq : s.iq with
  | nil => exact ⟨_, exec_inp_of_nil hq, rfl, rfl, rfl, hbytes⟩
  | cons c rest =>
    rw [hq, List.forall_mem_cons] at hbytes
    obtain ⟨hc, hrest⟩ := hbytes
    exact ⟨_, exec_inp_of_byte hdp hq (Nat.le_of_lt_succ hc), rfl, rfl, rfl, hrest⟩

/-- Settles O30, by induction on the number of steps. -/
theorem streamsMoveInOrder : Obligations.StreamsMoveInOrder := fun _ _ _ => run_streams

/-- Settles O31: a step that fetches `.` runs it, and no other step writes the stream. -/
theorem onlyOutWritesTheOutput : Obligations.OnlyOutWritesTheOutput := by
  refine fun s t h => ⟨fun ⟨hrun, hf⟩ => ?_, fun hnot => ?_⟩
  · obtain ⟨-, rfl⟩ := exec_next.1 ((step_of_fetches hrun hf).symm.trans h)
    rfl
  · obtain hsame | ⟨hrun, hf, -⟩ := step_out h
    · exact hsame
    · exact absurd ⟨hrun, hf⟩ hnot
end

section
/-! SUPPORT. Which words a scan tells apart, a scan as the search for the first balanced stretch, and the statements of
43_bracket_scanner.md on the agreement of the two scans that follow. -/

namespace Sys2Proof.Machine

/-! ### A scan tells words apart by their brackets alone (R166) -/

/-- Whether a word is `[`, and whether it is `]`. -/
def bracketOf (w : PWord) : Bool × Bool := (isCmd w codeLoopStart, isCmd w codeLoopEnd)

theorem scanForwardFrom_congr {ws ws' : List PWord} (h : ws.map bracketOf = ws'.map bracketOf) (depth j : Nat) :
    scanForwardFrom depth j ws = scanForwardFrom depth j ws' := by
  induction ws generalizing ws' depth j with
  | nil => rw [List.map_eq_nil_iff.1 h.symm]
  | cons w ws ih =>
    obtain ⟨w', ws', rfl, hw, hws⟩ := List.map_eq_cons_iff.1 h.symm
    obtain ⟨hopen, hclose⟩ := Prod.mk.inj hw
    simp only [scanForwardFrom, hopen, hclose, ih hws.symm]

theorem scanBackwardFrom_congr {ws ws' : List PWord} (h : ws.map bracketOf = ws'.map bracketOf) (depth : Nat) :
    scanBackwardFrom depth ws = scanBackwardFrom depth ws' := by
  induction ws generalizing ws' depth with
  | nil => rw [List.map_eq_nil_iff.1 h.symm]
  | cons w ws ih =>
    obtain ⟨w', ws', rfl, hw, hws⟩ := List.map_eq_cons_iff.1 h.symm
    obtain ⟨hopen, hclose⟩ := Prod.mk.inj hw
    have hlen : ws.length = ws'.length := by simpa using congrArg List.length hws.symm
    simp only [scanBackwardFrom, hopen, hclose, ih hws.symm, hlen]

/-- Texts of one length with `[` and `]` at the same places have the same brackets word by word. -/
theorem map_bracketOf_eq {text text' : List PWord} (hlen : text.length = text'.length)
    (hopen : ∀ k, isCmdAt text k codeLoopStart = isCmdAt text' k codeLoopStart)
    (hclose : ∀ k, isCmdAt text k codeLoopEnd = isCmdAt text' k codeLoopEnd) :
    text.map bracketOf = text'.map bracketOf := by
  refine List.ext_getElem (by simpa using hlen) fun k hk hk' => ?_
  rw [List.length_map] at hk hk'
  have ho := hopen k
  have hc := hclose k
  simp only [isCmdAt, List.getElem?_eq_getElem hk, List.getElem?_eq_getElem hk'] at ho hc
  simp only [List.getElem_map, bracketOf, ho, hc]

theorem scanForward_congr {text text' : List PWord} (h : text.map bracketOf = text'.map bracketOf) (p : Nat) :
    scanForward text p = scanForward text' p :=
  scanForwardFrom_congr (by rw [List.map_drop, List.map_drop, h]) _ _

theorem scanBackward_congr {text text' : List PWord} (h : text.map bracketOf = text'.map bracketOf) (p : Nat) :
    scanBackward text p = scanBackward text' p :=
  scanBackwardFrom_congr (by rw [List.map_reverse, List.map_reverse, List.map_take, List.map_take, h]) _

/-! ### Balanced stretches (R167) -/

theorem loopEnd_of_isCmd {w : PWord} (h : isCmd w codeLoopEnd = true) : isCmd w codeLoopStart = false := by
  rw [isCmd_iff.1 h]
  rfl

/-- A list of words is balanced from one depth at most. -/
theorem balancedFrom_unique {ws : List PWord} {d e : Nat} (hd : balancedFrom d ws = true)
    (he : balancedFrom e ws = true) : d = e := by
  induction ws generalizing d e with
  | nil => exact (beq_iff_eq.1 hd).trans (beq_iff_eq.1 he).symm
  | cons w ws ih =>
    rw [balancedFrom] at hd he
    by_cases hopen : isCmd w codeLoopStart = true
    · rw [if_pos hopen] at hd he
      exact Nat.succ.inj (ih hd he)
    · rw [if_neg hopen] at hd he
      by_cases hclose : isCmd w codeLoopEnd = true
      · rw [if_pos hclose, Bool.and_eq_true_iff, bne_iff_ne] at hd he
        have hpred := ih hd.2 he.2
        omega
      · rw [if_neg hclose] at hd he
        exact ih hd he

/-- What is left of a balanced list after a front of it is balanced from some depth. -/
theorem balancedFrom_suffix {us ws : List PWord} {d : Nat} (h : balancedFrom d (us ++ ws) = true) :
    ∃ e, balancedFrom e ws = true := by
  induction us generalizing d with
  | nil => exact ⟨d, h⟩
  | cons u us ih =>
    rw [List.cons_append, balancedFrom] at h
    by_cases hopen : isCmd u codeLoopStart = true
    · rw [if_pos hopen] at h
      exact ih h
    · rw [if_neg hopen] at h
      by_cases hclose : isCmd u codeLoopEnd = true
      · rw [if_pos hclose, Bool.and_eq_true_iff] at h
        exact ih h.2
      · rw [if_neg hclose] at h
        exact ih h

/-- The forward scan stops at a `]` exactly when the words before it are balanced from the scan's depth. -/
theorem scanForwardFrom_eq_some_iff {mid post : List PWord} {c : PWord} (hc : isCmd c codeLoopEnd = true)
    {depth j : Nat} :
    scanForwardFrom depth j (mid ++ c :: post) = some (j + mid.length) ↔ balancedFrom depth mid = true := by
  induction mid generalizing depth j with
  | nil =>
    rw [List.nil_append, scanForwardFrom, if_neg (by simp [loopEnd_of_isCmd hc]), if_pos hc, balancedFrom, beq_iff_eq]
    by_cases hdepth : depth = 0
    · simp [hdepth]
    · rw [if_neg hdepth]
      refine iff_of_false (fun h => ?_) hdepth
      obtain ⟨k, -, hk, -⟩ := scanForwardFrom_stops_at_loopEnd h
      rw [List.length_nil] at hk
      omega
  | cons w mid ih =>
    have hindex : j + (w :: mid).length = j + 1 + mid.length := by
      rw [List.length_cons]
      omega
    rw [List.cons_append, scanForwardFrom, balancedFrom, hindex]
    by_cases hopen : isCmd w codeLoopStart = true
    · rw [if_pos hopen, if_pos hopen, ih]
    · rw [if_neg hopen, if_neg hopen]
      by_cases hclose : isCmd w codeLoopEnd = true
      · rw [if_pos hclose, if_pos hclose]
        by_cases hdepth : depth = 0
        · simp [hdepth, Nat.add_assoc]
        · simp [hdepth, ih]
      · rw [if_neg hclose, if_neg hclose, ih]

/-- The backward scan, with the words `after` already passed, stops at a `[` exactly when all that is above it is
balanced. The scan's depth is the one from which `after` is balanced. -/
theorem scanBackwardFrom_eq_some_iff {below pre after : List PWord} {o : PWord}
    (ho : isCmd o codeLoopStart = true) {depth : Nat} (hafter : balancedFrom depth after = true) :
    scanBackwardFrom depth (below ++ o :: pre) = some pre.length ↔
      balancedFrom 0 (below.reverse ++ after) = true := by
  have hnotClose : ∀ {w : PWord}, isCmd w codeLoopStart = true → ¬ isCmd w codeLoopEnd = true := fun hw he => by
    simp [loopEnd_of_isCmd he] at hw
  induction below generalizing depth after with
  | nil =>
    rw [List.nil_append, scanBackwardFrom, if_neg (hnotClose ho), if_pos ho, List.reverse_nil, List.nil_append]
    by_cases hdepth : depth = 0
    · rw [if_pos hdepth]
      exact iff_of_true rfl (hdepth ▸ hafter)
    · rw [if_neg hdepth]
      refine iff_of_false (fun h => ?_) fun h => hdepth (balancedFrom_unique hafter h)
      obtain ⟨w, hw, -⟩ := scanBackwardFrom_stops_at_loopStart h
      have hlt := (List.getElem?_eq_some_iff.1 hw).1
      rw [List.length_reverse] at hlt
      exact Nat.lt_irrefl _ hlt
  | cons w below ih =>
    have hmove : (w :: below).reverse ++ after = below.reverse ++ w :: after := by simp
    rw [List.cons_append, scanBackwardFrom, hmove]
    by_cases hclose : isCmd w codeLoopEnd = true
    · rw [if_pos hclose]
      refine ih ?_
      rw [balancedFrom, if_neg (by simp [loopEnd_of_isCmd hclose]), if_pos hclose]
      simpa using hafter
    · rw [if_neg hclose]
      by_cases hopen : isCmd w codeLoopStart = true
      · rw [if_pos hopen]
        by_cases hdepth : depth = 0
        · subst hdepth
          rw [if_pos rfl]
          refine iff_of_false (by simp; omega) fun h => ?_
          obtain ⟨e, he⟩ := balancedFrom_suffix h
          rw [balancedFrom, if_pos hopen] at he
          exact absurd (balancedFrom_unique hafter he) (Nat.succ_ne_zero e).symm
        · rw [if_neg hdepth]
          refine ih ?_
          rw [balancedFrom, if_pos hopen, Nat.sub_add_cancel (Nat.pos_of_ne_zero hdepth)]
          exact hafter
      · rw [if_neg hopen]
        refine ih ?_
        rw [balancedFrom, if_neg hopen, if_neg hclose]
        exact hafter

/-! ### The two scans between a `[` and a `]` of one text -/

theorem isCmdAt_iff {text : List PWord} {i c : Nat} :
    isCmdAt text i c = true ↔ ∃ w, text[i]? = some w ∧ isCmd w c = true := by
  rw [isCmdAt]
  cases text[i]? <;> simp

/-- A list cut at one of its indices. -/
theorem exists_eq_append_cons {α : Type} {l : List α} {i : Nat} {a : α} (h : l[i]? = some a) :
    ∃ pre post, l = pre ++ a :: post ∧ pre.length = i := by
  obtain ⟨hi, rfl⟩ := List.getElem?_eq_some_iff.1 h
  refine ⟨l.take i, l.drop (i + 1), ?_, List.length_take_of_le (Nat.le_of_lt hi)⟩
  rw [← List.drop_eq_getElem_cons hi, List.take_append_drop]

/-- A text cut at a `[` and at a `]` after it. -/
theorem exists_eq_append_of_brackets {text : List PWord} {i j : Nat} (hi : isCmdAt text i codeLoopStart = true)
    (hj : isCmdAt text j codeLoopEnd = true) (hij : i < j) :
    ∃ pre o mid c post, text = pre ++ o :: (mid ++ c :: post) ∧ isCmd o codeLoopStart = true ∧
      isCmd c codeLoopEnd = true ∧ pre.length = i ∧ i + 1 + mid.length = j := by
  obtain ⟨o, ho, hopen⟩ := isCmdAt_iff.1 hi
  obtain ⟨c, hc, hclose⟩ := isCmdAt_iff.1 hj
  obtain ⟨pre, rest, rfl, hpre⟩ := exists_eq_append_cons ho
  obtain ⟨k, rfl⟩ := Nat.exists_eq_add_of_lt hij
  have hindex : i + k + 1 - pre.length = k + 1 := by omega
  rw [List.getElem?_append_right (by omega), hindex, List.getElem?_cons_succ] at hc
  obtain ⟨mid, post, rfl, hmid⟩ := exists_eq_append_cons hc
  exact ⟨pre, o, mid, c, post, rfl, hopen, hclose, hpre, by omega⟩

section

variable {pre mid post : List PWord} {o c : PWord}

theorem scanForward_between (hc : isCmd c codeLoopEnd = true) :
    scanForward (pre ++ o :: (mid ++ c :: post)) pre.length = some (pre.length + 1 + mid.length) ↔
      balancedFrom 0 mid = true := by
  have hdrop : (pre ++ o :: (mid ++ c :: post)).drop (pre.length + 1) = mid ++ c :: post := by simp
  rw [scanForward, hdrop, scanForwardFrom_eq_some_iff hc]

theorem scanBackward_between (ho : isCmd o codeLoopStart = true) :
    scanBackward (pre ++ o :: (mid ++ c :: post)) (pre.length + 1 + mid.length) = some pre.length ↔
      balancedFrom 0 mid = true := by
  have htake : (pre ++ o :: (mid ++ c :: post)).take (pre.length + 1 + mid.length) = pre ++ o :: mid := by
    rw [Nat.add_assoc, List.take_length_add_append, Nat.add_comm 1, List.take_succ_cons, List.take_left]
  have hreverse : (pre ++ o :: mid).reverse = mid.reverse ++ o :: pre.reverse := by simp
  have hscan := scanBackwardFrom_eq_some_iff (below := mid.reverse) (pre := pre.reverse) (after := []) (depth := 0) ho rfl
  rwa [List.length_reverse, List.reverse_reverse, List.append_nil, ← hreverse, ← htake] at hscan

theorem balancedBetween_eq :
    balancedBetween (pre ++ o :: (mid ++ c :: post)) pre.length (pre.length + 1 + mid.length) =
      balancedFrom 0 mid := by
  have hdrop : (pre ++ o :: (mid ++ c :: post)).drop (pre.length + 1) = mid ++ c :: post := by simp
  rw [balancedBetween, hdrop, Nat.add_sub_cancel_left, List.take_left]

end

end Sys2Proof.Machine

/-! ### The statements -/

open Sys2Proof Sys2Proof.Machine

/-- Settles O34: with the text cut at the two brackets, each scan finds the other bracket exactly when the words between
are balanced; and no scan finds a bracket on the side it does not look at. -/
theorem scansAgreeInBothDirections : Obligations.ScansAgreeInBothDirections := by
  intro text i j hi hj
  by_cases hij : i < j
  · obtain ⟨pre, o, mid, c, post, rfl, hopen, hclose, rfl, rfl⟩ := exists_eq_append_of_brackets hi hj hij
    rw [scanForward_between hclose, scanBackward_between hopen, balancedBetween_eq, and_iff_right hij]
    exact ⟨Iff.rfl, Iff.rfl⟩
  · have hforward : scanForward text i ≠ some j := fun h => hij (scanForward_some h).1
    have hbackward : scanBackward text j ≠ some i := fun h => hij (scanBackward_some h).1
    exact ⟨iff_of_false hforward hbackward, iff_of_false hforward fun h => hij h.1⟩

/-- Settles O35: the scans of texts with the same brackets are the same, and where a scan stops. -/
theorem scansSeeOnlyBracketsOfTheText : Obligations.ScansSeeOnlyBracketsOfTheText := by
  refine ⟨fun text text' p hlen hopen hclose => ?_, fun _ _ _ => scanForward_some, fun _ _ _ => scanBackward_some⟩
  have hsame := map_bracketOf_eq hlen hopen hclose
  exact ⟨scanForward_congr hsame p, scanBackward_congr hsame p⟩
end

section
/-! SUPPORT. The kind each command can raise, what an instruction does to `pc`, that an ended run stays, and the statements
of 44_dispatch_sequencer.md and 60_exceptions.md that follow. -/

namespace Sys2Proof.Machine

/-! ### The kind each command can raise (R227) -/

/-- The table of R227, without its row for the fetch. -/
def errKind? : Instr → Option ErrKind
  | .ptrInc | .ptrDec => some .badMemoryPointer
  | .inp => some .badInput
  | .loopStart => some .unmatchedClosingBracket
  | .loopEnd => some .unmatchedOpeningBracket
  | .halt _ | .cellInc | .cellDec | .out | .comment _ => none

/-- What an instruction can do to `STATUS` and `ERR`: nothing; or it is a terminator and ends the run; or it aborts with
its kind. -/
theorem exec_status_err {i : Instr} {s t : State} (h : exec i s = .next t) :
    (t.status = s.status ∧ t.err = s.err) ∨ ((∃ k, i = .halt k) ∧ t.status = .terminated ∧ t.err = s.err) ∨
      ∃ k, errKind? i = some k ∧ AbortsTo s k t := by
  rw [exec_next] at h
  cases i with
  | halt k =>
    obtain rfl := h
    exact .inr (.inl ⟨⟨k, rfl⟩, rfl, rfl⟩)
  | comment _ =>
    obtain rfl := h
    exact .inl ⟨rfl, rfl⟩
  | cellInc | cellDec | out =>
    obtain ⟨-, rfl⟩ := h
    exact .inl ⟨rfl, rfl⟩
  | ptrInc =>
    obtain ⟨-, rfl⟩ | ⟨-, rfl⟩ := h
    · exact .inl ⟨rfl, rfl⟩
    · exact .inr (.inr ⟨_, rfl, abortsTo_raise ..⟩)
  | ptrDec =>
    obtain ⟨-, -, rfl⟩ | ⟨-, rfl⟩ := h
    · exact .inl ⟨rfl, rfl⟩
    · exact .inr (.inr ⟨_, rfl, abortsTo_raise ..⟩)
  | inp =>
    obtain ⟨-, rfl⟩ | ⟨c, rest, -, -, -, rfl⟩ | ⟨c, rest, -, -, rfl⟩ := h
    · exact .inl ⟨rfl, rfl⟩
    · exact .inl ⟨rfl, rfl⟩
    · exact .inr (.inr ⟨_, rfl, rest, rfl⟩)
  | loopStart =>
    obtain ⟨-, ⟨-, rfl⟩ | ⟨-, m, -, rfl⟩ | ⟨-, -, rfl⟩⟩ := h
    · exact .inl ⟨rfl, rfl⟩
    · exact .inl ⟨rfl, rfl⟩
    · exact .inr (.inr ⟨_, rfl, abortsTo_raise ..⟩)
  | loopEnd =>
    obtain ⟨m, -, rfl⟩ | ⟨-, rfl⟩ := h
    · exact .inl ⟨rfl, rfl⟩
    · exact .inr (.inr ⟨_, rfl, abortsTo_raise ..⟩)

/-- An instruction that aborts a `RUNNING` state has a kind in the table, and records it. -/
theorem errKind?_of_exec_aborts {i : Instr} {s t : State} (hrun : s.status = .running) (h : exec i s = .next t)
    (ht : t.status = .aborted) : errKind? i = some t.err := by
  obtain ⟨hsame, -⟩ | ⟨-, hended, -⟩ | ⟨k, hk, iq, rfl⟩ := exec_status_err h
  · cases ht.symm.trans (hsame.trans hrun)
  · cases ht.symm.trans hended
  · exact hk

/-- A `,` that aborts a `RUNNING` state has taken a character above 255 (R225). -/
theorem head_of_exec_inp_aborts {s t : State} (hrun : s.status = .running) (h : exec .inp s = .next t)
    (ht : t.status = .aborted) : t.err = .badInput ∧ ∃ c, s.iq = c :: t.iq ∧ 255 < c := by
  obtain ⟨-, rfl⟩ | ⟨c, rest, -, -, -, rfl⟩ | ⟨c, rest, hq, hwide, rfl⟩ := exec_next.1 h
  · cases hrun.symm.trans ht
  · cases hrun.symm.trans ht
  · exact ⟨rfl, c, hq, hwide⟩

/-! ### What an instruction does to `pc` (R36) -/

/-- The `pc` of a next state that is not aborted. -/
def NextPc (s t : State) : Instr → Prop
  | .halt _ => t.pc = s.pc
  | .loopStart => t.pc = s.pc + 1 ∨ ∃ m, scanForward s.prog.text s.pc = some m ∧ t.pc = m + 1
  | .loopEnd => ∃ m, scanBackward s.prog.text s.pc = some m ∧ t.pc = m
  | .ptrInc | .ptrDec | .cellInc | .cellDec | .out | .inp | .comment _ => t.pc = s.pc + 1

theorem exec_nextPc {i : Instr} {s t : State} (h : exec i s = .next t) (ht : t.status ≠ .aborted) : NextPc s t i := by
  rw [exec_next] at h
  cases i with
  | halt _ | comment _ =>
    obtain rfl := h
    rfl
  | cellInc | cellDec | out =>
    obtain ⟨-, rfl⟩ := h
    rfl
  | ptrInc =>
    obtain ⟨-, rfl⟩ | ⟨-, rfl⟩ := h
    · rfl
    · exact absurd rfl ht
  | ptrDec =>
    obtain ⟨-, -, rfl⟩ | ⟨-, rfl⟩ := h
    · rfl
    · exact absurd rfl ht
  | inp =>
    obtain ⟨-, rfl⟩ | ⟨c, rest, -, -, -, rfl⟩ | ⟨c, rest, -, -, rfl⟩ := h
    · rfl
    · rfl
    · exact absurd rfl ht
  | loopStart =>
    obtain ⟨-, ⟨-, rfl⟩ | ⟨-, m, hm, rfl⟩ | ⟨-, -, rfl⟩⟩ := h
    · exact .inl rfl
    · exact .inr ⟨m, hm, rfl⟩
    · exact absurd rfl ht
  | loopEnd =>
    obtain ⟨m, hm, rfl⟩ | ⟨-, rfl⟩ := h
    · exact ⟨m, hm, rfl⟩
    · exact absurd rfl ht

/-- A step from `RUNNING` that does not abort runs the instruction it fetched. -/
theorem exec_of_step_not_aborted {s t : State} (hrun : s.status = .running) (h : step s = .next t)
    (ht : t.status ≠ .aborted) : ∃ i, s.Fetches i ∧ exec i s = .next t := by
  obtain ⟨hended, -⟩ | ⟨-, -, rfl⟩ | ⟨-, hexec⟩ := step_next.1 h
  · exact absurd hrun hended
  · exact absurd rfl ht
  · exact hexec

/-! ### Aborting steps (R224) -/

/-- A step from `RUNNING` that aborts does so with a kind whose condition holds. -/
theorem step_aborts {s t : State} (hrun : s.status = .running) (h : step s = .next t) (ht : t.status = .aborted) :
    s.Raises t.err ∧ AbortsTo s t.err t := by
  obtain ⟨-, hnot⟩ | ⟨k, hraises, iq, rfl⟩ := step_keepsErr_or_aborts hrun h
  · exact absurd ht hnot
  · exact ⟨hraises, iq, rfl⟩

/-- An aborting step leaves the queue, but for the head above 255 that a failing `,` has taken (R225). -/
theorem iq_of_step_aborts {s t : State} (hrun : s.status = .running) (h : step s = .next t)
    (ht : t.status = .aborted) : t.iq = s.iq ∨ (t.err = .badInput ∧ ∃ c, s.iq = c :: t.iq ∧ 255 < c) :=
  (inputQueueOnlyLosesItsHead.1 s t h).imp_right fun ⟨_, hf, _⟩ =>
    head_of_exec_inp_aborts hrun ((step_of_fetches hrun hf).symm.trans h) ht

/-! ### Ended runs (R197, R201) -/

theorem run_of_ended {s : State} (hended : s.status ≠ .running) (k : Nat) : core.run k s = .next s := by
  induction k with
  | zero => rfl
  | succ k ih => exact run_succ.2 ⟨s, step_of_ended hended, ih⟩

theorem State.result_of_running {s : State} (h : s.status = .running) : s.result = none := if_pos h

theorem State.result_of_ended {s : State} (h : s.status ≠ .running) :
    s.result = some ⟨s.status, s.err, s.tape, s.dp, s.pc, s.iq, s.out⟩ := if_neg h

theorem State.result_eq_none {s : State} : s.result = none ↔ s.status = .running := by
  refine ⟨fun h => Decidable.byContradiction fun hended => ?_, State.result_of_running⟩
  cases h.symm.trans (State.result_of_ended hended)

end Sys2Proof.Machine

/-! ### The statements -/

open Sys2Proof Sys2Proof.Machine

/-- Settles O8: the step fetches `w` and executes what it decodes to. -/
theorem stepRunsDecodedInstr : Obligations.StepRunsDecodedInstr := by
  rintro s w i hrun hf rfl
  exact step_of_fetch hrun hf

/-- Settles O12: what a step answers for a fetched terminator, for a failed fetch, on an abort and for a comment; in an
ended run; and the reset state. -/
theorem statusTransitions : Obligations.StatusTransitions := by
  refine ⟨fun s t hrun h => ⟨⟨fetches_terminator_of_step hrun h, ?_⟩, fun hf => ?_, fun ht _ hnone => ?_,
    fun w hf hterm hcmd => ?_⟩, fun s t hended h => ?_, fun p h s hs => ?_⟩
  · rintro ⟨w, hf, hterm⟩
    obtain rfl := Host.Outcome.next.inj ((step_of_isTerm hrun hf hterm).symm.trans h)
    rfl
  · obtain rfl := Host.Outcome.next.inj ((step_of_no_fetch hrun hf).symm.trans h)
    exact ⟨rfl, rfl⟩
  · exact raises_ne_noError (step_aborts hrun h ht).1 hnone
  · obtain rfl := Host.Outcome.next.inj ((step_of_no_command hrun hf hterm hcmd).symm.trans h)
    exact hrun
  · exact Host.Outcome.next.inj (h.symm.trans (step_of_ended hended))
  · obtain rfl := eq_resetState_of_construct hs
    exact ⟨rfl, rfl⟩

/-- Settles O13: a state that has a result is not `RUNNING`, and no run leads away from it. -/
theorem endedRunsDoNotMove : Obligations.EndedRunsDoNotMove := by
  refine ⟨fun s k hended => run_of_ended hended k, fun s => State.result_eq_none, fun s r hr => ?_⟩
  have hended : s.status ≠ .running := fun hrun => by cases hr.symm.trans (State.result_of_running hrun)
  refine ⟨Option.some.inj (hr.symm.trans (State.result_of_ended hended)), fun k t hrun => ?_⟩
  obtain rfl := Host.Outcome.next.inj ((run_of_ended hended k).symm.trans hrun)
  exact hr

/-- Settles O14: an abort writes no `pc`, each instruction writes its own, and the invariant holds after the step. -/
theorem nextProgramCounter : Obligations.NextProgramCounter := by
  refine fun s t hrun h => ⟨fun ht => ?_, fun ht => ?_, fun hinv => ?_⟩
  · obtain ⟨-, iq, heq⟩ := step_aborts hrun h ht
    rw [heq]
    rfl
  · obtain ⟨i, hf, hexec⟩ := exec_of_step_not_aborted hrun h ht
    exact ⟨i, hf, exec_nextPc hexec ht⟩
  · exact programCounterStaysInRange.2 s t hinv hrun h

/-- Settles O42: the condition of the kind, and what a `,` that aborts has taken. -/
theorem badInputRaisedExactlyWhen : Obligations.BadInputRaisedExactlyWhen := by
  refine ⟨rfl, fun s t hrun herr _ hstep => ⟨step_aborts_iff_raises hrun hstep, fun ht => ?_⟩⟩
  obtain ⟨hab, -, hpc⟩ := aborted_of_step_err hrun herr hstep ht nofun
  obtain ⟨hf, -⟩ := (step_aborts_iff_raises hrun hstep).1 ⟨hab, ht⟩
  exact ⟨hab, hpc, (head_of_exec_inp_aborts hrun ((step_of_fetches hrun hf).symm.trans hstep) hab).2⟩

/-- Settles O43: the aborted state is the old one but for `STATUS`, `ERR` and the queue, and what became of the
queue. -/
theorem abortWritesOnlyStatusAndErr : Obligations.AbortWritesOnlyStatusAndErr := by
  intro s t hrun h ht
  obtain ⟨hraises, iq, heq⟩ := step_aborts hrun h ht
  have hiq : t.iq = iq := by rw [heq]; rfl
  subst hiq
  exact ⟨raises_ne_noError hraises, heq, iq_of_step_aborts hrun h ht⟩

/-- Settles O44: the table of R227, row by row. -/
theorem eachCommandRaisesAtMostOneKind : Obligations.EachCommandRaisesAtMostOneKind := by
  intro i s t hrun h ht
  have hkind := errKind?_of_exec_aborts hrun h ht
  cases i with
  | ptrInc | ptrDec | inp | loopStart | loopEnd => exact (Option.some.inj hkind).symm
  | halt _ | cellInc | cellDec | out | comment _ => cases hkind
end

section
/-! SUPPORT. Which instructions store nothing, that the rest of a step does not depend on the cells `dp` does not select,
that a canonical tape is determined by what it reads, and the frame statements that follow. -/

namespace Sys2Proof.Machine

/-! ### What an instruction stores (20_memory.md section 2) -/

/-- Only `+`, `-` and `,` store to the tape. -/
theorem tape_of_exec_nonstoring {i : Instr} {s t : State} (h : exec i s = .next t) (hinc : i ≠ .cellInc)
    (hdec : i ≠ .cellDec) (hinp : i ≠ .inp) : t.tape = s.tape := by
  rw [exec_next] at h
  cases i with
  | cellInc => exact absurd rfl hinc
  | cellDec => exact absurd rfl hdec
  | inp => exact absurd rfl hinp
  | halt _ | comment _ =>
    obtain rfl := h
    rfl
  | out =>
    obtain ⟨-, rfl⟩ := h
    rfl
  | ptrInc =>
    obtain ⟨-, rfl⟩ | ⟨-, rfl⟩ := h <;> rfl
  | ptrDec =>
    obtain ⟨-, -, rfl⟩ | ⟨-, rfl⟩ := h <;> rfl
  | loopStart =>
    obtain ⟨-, ⟨-, rfl⟩ | ⟨-, m, -, rfl⟩ | ⟨-, -, rfl⟩⟩ := h <;> rfl
  | loopEnd =>
    obtain ⟨m, -, rfl⟩ | ⟨-, rfl⟩ := h <;> rfl

/-- `,` on an empty queue stores nothing (R141). -/
theorem tape_of_exec_inp_nil {s t : State} (h : exec .inp s = .next t) (hq : s.iq = []) : t.tape = s.tape := by
  obtain rfl := Host.Outcome.next.inj (h.symm.trans (exec_inp_of_nil hq))
  rfl

/-- Of the commands that store nothing, those of R227's table can abort. -/
theorem errKind?_of_ne_inp {i : Instr} {k : ErrKind} (hi : i ≠ .inp) (hk : errKind? i = some k) :
    (i = .ptrInc ∨ i = .ptrDec ∨ i = .loopStart ∨ i = .loopEnd) ∧ k ≠ .noError := by
  cases i with
  | ptrInc | ptrDec | loopStart | loopEnd =>
    obtain rfl := Option.some.inj hk
    simp
  | inp => exact absurd rfl hi
  | halt _ | cellInc | cellDec | out | comment _ => cases hk

/-- Of the commands that store, `,` alone can abort (R227). -/
theorem exec_storing_status_err {i : Instr} {s t : State} (hi : i = .cellInc ∨ i = .cellDec ∨ i = .inp)
    (h : exec i s = .next t) :
    (t.status = s.status ∧ t.err = s.err) ∨ (i = .inp ∧ AbortsTo s .badInput t) := by
  obtain hsame | ⟨⟨k, rfl⟩, -⟩ | ⟨k, hk, habort⟩ := exec_status_err h
  · exact .inl hsame
  · rcases hi with h | h | h <;> cases h
  · obtain rfl | rfl | rfl := hi
    · cases hk
    · cases hk
    · obtain rfl := Option.some.inj hk
      exact .inr ⟨rfl, habort⟩

/-! ### What an instruction sees of the tape -/

/-- The tapes `m'` and `t.tape` come of `m` and `s.tape` by the same store in the current cell, or by none. -/
def SameStore (s t : State) (m m' : Memory) : Prop :=
  (m' = m ∧ t.tape = s.tape) ∨ ∃ v, m' = m.write s.dp v ∧ t.tape = s.tape.write s.dp v

/-- On a tape that agrees with the state's at `dp`, an instruction does the same. -/
theorem exec_of_same_cell {i : Instr} {s t : State} {m : Memory} (hm : m.read s.dp = s.tape.read s.dp)
    (h : exec i s = .next t) :
    ∃ m', exec i { s with tape := m } = .next { t with tape := m' } ∧ SameStore s t m m' := by
  rw [exec_next] at h
  simp only [exec_next]
  cases i with
  | halt _ | comment _ =>
    obtain rfl := h
    exact ⟨m, rfl, .inl ⟨rfl, rfl⟩⟩
  | cellInc | cellDec =>
    obtain ⟨hdp, rfl⟩ := h
    exact ⟨_, ⟨hdp, by rw [hm]⟩, .inr ⟨_, rfl, rfl⟩⟩
  | out =>
    obtain ⟨hdp, rfl⟩ := h
    exact ⟨m, ⟨hdp, by rw [hm]⟩, .inl ⟨rfl, rfl⟩⟩
  | ptrInc =>
    obtain ⟨hlt, rfl⟩ | ⟨hlast, rfl⟩ := h
    · exact ⟨m, .inl ⟨hlt, rfl⟩, .inl ⟨rfl, rfl⟩⟩
    · exact ⟨m, .inr ⟨hlast, rfl⟩, .inl ⟨rfl, rfl⟩⟩
  | ptrDec =>
    obtain ⟨hpos, hle, rfl⟩ | ⟨hfirst, rfl⟩ := h
    · exact ⟨m, .inl ⟨hpos, hle, rfl⟩, .inl ⟨rfl, rfl⟩⟩
    · exact ⟨m, .inr ⟨hfirst, rfl⟩, .inl ⟨rfl, rfl⟩⟩
  | inp =>
    obtain ⟨hq, rfl⟩ | ⟨c, rest, hq, hc, hdp, rfl⟩ | ⟨c, rest, hq, hc, rfl⟩ := h
    · exact ⟨m, .inl ⟨hq, rfl⟩, .inl ⟨rfl, rfl⟩⟩
    · exact ⟨_, .inr (.inl ⟨c, rest, hq, hc, hdp, rfl⟩), .inr ⟨_, rfl, rfl⟩⟩
    · exact ⟨m, .inr (.inr ⟨c, rest, hq, hc, rfl⟩), .inl ⟨rfl, rfl⟩⟩
  | loopStart =>
    obtain ⟨hdp, ⟨hcell, rfl⟩ | ⟨hcell, n, hn, rfl⟩ | ⟨hcell, hn, rfl⟩⟩ := h
    · exact ⟨m, ⟨hdp, .inl ⟨hm ▸ hcell, rfl⟩⟩, .inl ⟨rfl, rfl⟩⟩
    · exact ⟨m, ⟨hdp, .inr (.inl ⟨hm.trans hcell, n, hn, rfl⟩)⟩, .inl ⟨rfl, rfl⟩⟩
    · exact ⟨m, ⟨hdp, .inr (.inr ⟨hm.trans hcell, hn, rfl⟩)⟩, .inl ⟨rfl, rfl⟩⟩
  | loopEnd =>
    obtain ⟨n, hn, rfl⟩ | ⟨hn, rfl⟩ := h
    · exact ⟨m, .inl ⟨n, hn, rfl⟩, .inl ⟨rfl, rfl⟩⟩
    · exact ⟨m, .inr ⟨hn, rfl⟩, .inl ⟨rfl, rfl⟩⟩

theorem step_of_same_cell {s t : State} {m : Memory} (hm : m.read s.dp = s.tape.read s.dp) (h : step s = .next t) :
    ∃ m', step { s with tape := m } = .next { t with tape := m' } ∧ SameStore s t m m' := by
  obtain ⟨hended, rfl⟩ | ⟨hrun, hf, rfl⟩ | ⟨hrun, i, hf, hexec⟩ := step_next.1 h
  · exact ⟨m, step_next.2 (.inl ⟨hended, rfl⟩), .inl ⟨rfl, rfl⟩⟩
  · exact ⟨m, step_next.2 (.inr (.inl ⟨hrun, hf, rfl⟩)), .inl ⟨rfl, rfl⟩⟩
  · obtain ⟨m', hexec', hstore⟩ := exec_of_same_cell hm hexec
    exact ⟨m', step_next.2 (.inr (.inr ⟨hrun, i, hf, hexec'⟩)), hstore⟩

/-- The same store leaves the current cells of two tapes equal that had them equal. -/
theorem SameStore.read_dp {s t : State} {m m' : Memory} (h : SameStore s t m m') (hwf : s.tape.wf = true)
    (hm : m.wf = true) (hread : m.read s.dp = s.tape.read s.dp) : m'.read s.dp = t.tape.read s.dp := by
  obtain ⟨rfl, ht⟩ | ⟨v, rfl, ht⟩ := h
  · rw [ht, hread]
  · rw [ht, Memory.read_write_same hm, Memory.read_write_same hwf]

theorem SameStore.read_of_ne {s t : State} {m m' : Memory} (h : SameStore s t m m') {a : Nat} (ha : a ≠ s.dp) :
    m'.read a = m.read a := by
  obtain ⟨rfl, -⟩ | ⟨v, rfl, -⟩ := h
  · rfl
  · exact Memory.read_write_of_ne _ _ ha

/-! ### The canonical form (log entry 17) -/

theorem Memory.wfFrom_cons {lo a : Nat} {v : Byte} {m : Memory} :
    Memory.wfFrom lo ((a, v) :: m) = true ↔ lo ≤ a ∧ v ≠ unlistedCell ∧ m.wfFrom (a + 1) = true := by
  simp [Memory.wfFrom, and_assoc]

theorem Memory.read_cons_self (a : Nat) (v : Byte) (m : Memory) : Memory.read ((a, v) :: m) a = v := if_pos rfl

/-- A canonical tape that lists a cell does not read as the empty one there. -/
theorem Memory.read_cons_ne_unlistedCell {lo a : Nat} {v : Byte} {m : Memory}
    (hm : Memory.wfFrom lo ((a, v) :: m) = true) : Memory.read ((a, v) :: m) a ≠ unlistedCell := by
  obtain ⟨-, hv, -⟩ := Memory.wfFrom_cons.1 hm
  rwa [Memory.read_cons_self]

/-- The first listed index of a canonical tape is the lowest that does not read as an unlisted cell, so it is listed no
later in a tape that reads alike. -/
theorem Memory.head_le_of_read_eq {lo a b : Nat} {v u : Byte} {m n : Memory}
    (hm : Memory.wfFrom lo ((a, v) :: m) = true) (hn : Memory.wfFrom lo ((b, u) :: n) = true)
    (h : ∀ k, Memory.read ((a, v) :: m) k = Memory.read ((b, u) :: n) k) : b ≤ a := by
  obtain ⟨-, hu, hn'⟩ := Memory.wfFrom_cons.1 hn
  have hfrom : Memory.wfFrom b ((b, u) :: n) = true := Memory.wfFrom_cons.2 ⟨Nat.le_refl b, hu, hn'⟩
  refine Nat.le_of_not_lt fun hlt => Memory.read_cons_ne_unlistedCell hm ?_
  rw [h a, Memory.read_of_wfFrom hfrom hlt]

/-- Behind equal first entries, tapes that read alike read alike. -/
theorem Memory.tail_read_eq {a : Nat} {v : Byte} {m n : Memory} (hm : m.wfFrom (a + 1) = true)
    (hn : n.wfFrom (a + 1) = true) (h : ∀ k, Memory.read ((a, v) :: m) k = Memory.read ((a, v) :: n) k) (k : Nat) :
    m.read k = n.read k := by
  by_cases hk : k = a
  · have hlt : k < a + 1 := hk ▸ Nat.lt_succ_self k
    rw [Memory.read_of_wfFrom hm hlt, Memory.read_of_wfFrom hn hlt]
  · have hread := h k
    rwa [Memory.read_cons, Memory.read_cons, if_neg hk, if_neg hk] at hread

theorem Memory.eq_of_read_eq {lo : Nat} {m n : Memory} (hm : m.wfFrom lo = true) (hn : n.wfFrom lo = true)
    (h : ∀ a, m.read a = n.read a) : m = n := by
  induction m generalizing lo n with
  | nil =>
    cases n with
    | nil => rfl
    | cons c n => exact absurd (h c.1).symm (Memory.read_cons_ne_unlistedCell hn)
  | cons c m ih =>
    obtain ⟨a, v⟩ := c
    cases n with
    | nil => exact absurd (h a) (Memory.read_cons_ne_unlistedCell hm)
    | cons d n =>
      obtain ⟨b, u⟩ := d
      obtain rfl : a = b :=
        Nat.le_antisymm (Memory.head_le_of_read_eq hn hm fun k => (h k).symm) (Memory.head_le_of_read_eq hm hn h)
      obtain rfl : v = u := by
        have hread := h a
        rwa [Memory.read_cons_self, Memory.read_cons_self] at hread
      obtain ⟨-, -, hm'⟩ := Memory.wfFrom_cons.1 hm
      obtain ⟨-, -, hn'⟩ := Memory.wfFrom_cons.1 hn
      rw [ih hm' hn' (Memory.tail_read_eq hm' hn' h)]

end Sys2Proof.Machine

/-! ### The statements -/

open Sys2Proof Sys2Proof.Machine

/-- Settles O45: field by field what such an instruction may write, and what it may do to `STATUS` and `ERR`. -/
theorem nonStoringCommandsFrame : Obligations.NonStoringCommandsFrame := by
  intro i s t hi h
  obtain ⟨hinc, hdec, hinp⟩ : i ≠ .cellInc ∧ i ≠ .cellDec ∧ i ≠ .inp := by
    rcases hi with ⟨k, rfl⟩ | rfl | rfl | rfl | rfl | rfl | ⟨c, rfl⟩ <;> exact ⟨nofun, nofun, nofun⟩
  have htape := tape_of_exec_nonstoring h hinc hdec hinp
  obtain ⟨hconfig, hdp, -, hiq, hout⟩ := exec_writesOnly h
  obtain ⟨hlen, hprog, hpbits, hibits, hterm⟩ := RunConfig.mk.inj hconfig
  refine ⟨fun a => by rw [htape], htape, hlen, hprog, hpbits, hibits, hterm, hiq.resolve_right fun hr => hinp hr.1,
    fun hright hleft => hdp.resolve_right ?_, fun hne => hout.resolve_right fun hr => hne hr.1, ?_⟩
  · rintro (⟨rfl, -⟩ | ⟨rfl, -⟩)
    · exact hright rfl
    · exact hleft rfl
  · obtain hsame | hended | ⟨k, hk, iq, rfl⟩ := exec_status_err h
    · exact .inl hsame
    · exact .inr (.inl hended)
    · obtain ⟨hcommand, hkind⟩ := errKind?_of_ne_inp hinp hk
      exact .inr (.inr ⟨hcommand, rfl, hkind⟩)

/-- Settles O46: field by field what such an instruction may write; an abort is that of `,`, and stores nothing. -/
theorem storingCommandsFrame : Obligations.StoringCommandsFrame := by
  intro i s t hi h
  obtain ⟨hright, hleft, hne⟩ : i ≠ .ptrInc ∧ i ≠ .ptrDec ∧ i ≠ .out := by
    rcases hi with rfl | rfl | rfl <;> exact ⟨nofun, nofun, nofun⟩
  have hw := exec_writesOnly h
  obtain ⟨hlen, hprog, hpbits, hibits, hterm⟩ := RunConfig.mk.inj hw.runConfig
  have hstatus := exec_storing_status_err hi h
  refine ⟨fun a => hw.read_eq, ?_, fun hchange => ?_, hlen, hprog, hpbits, hibits, hterm, hw.dp.resolve_right ?_,
    hw.out.resolve_right fun hr => hne hr.1, fun hinp => hw.iq.resolve_right fun hr => hinp hr.1, ?_⟩
  · rintro rfl
    exact tape_of_exec_inp_nil h
  · obtain ⟨hsame, -⟩ | ⟨-, iq, rfl⟩ := hstatus
    · exact absurd hsame hchange
    · rfl
  · rintro (⟨rfl, -⟩ | ⟨rfl, -⟩)
    · exact hright rfl
    · exact hleft rfl
  · refine hstatus.imp_right ?_
    rintro ⟨hinp, iq, rfl⟩
    exact ⟨hinp, rfl, rfl⟩

/-- Settles O47: the instruction does the same on the other tape, and the same store. -/
theorem stepSeesOnlyTheCurrentCell : Obligations.StepSeesOnlyTheCurrentCell := by
  intro s t m hwf hm hread h
  obtain ⟨m', hstep, hstore⟩ := step_of_same_cell hread h
  exact ⟨m', hstep, hstore.read_dp hwf hm hread, fun a => hstore.read_of_ne⟩

/-- Settles O51, by induction on the two tapes: their first entries are the same. -/
theorem tapesThatReadAlikeAreEqual : Obligations.TapesThatReadAlikeAreEqual := fun _ _ => Memory.eq_of_read_eq
end
